-- ==== Sys2Proof/Word.lean ====
section
/-! DEFINITION. The word types of SHLE: bytes, the 64-bit count registers and the 32-bit header. -/

namespace Sys2Proof

/-- One byte, one cover element (spec R5 ELEM_BITS, R42). -/
abbrev Byte := BitVec 8

/-- A count register, W_CNT = 64 bits, unsigned (spec R6, R21). -/
abbrev Word := BitVec 64

/-- The register PLEN and the Header's value, 32 bits, unsigned (spec R12, R32). -/
abbrev Half := BitVec 32

end Sys2Proof
end

