-- ==== Sys2Proof/Config.lean ====
section
/-! DEFINITION. The parameters of spec R6, with their constraints in their types, and the free values of
spec 93 U1 and U3, which have no body. -/

namespace Sys2Proof

/-- The buffer capacities the source document leaves open (spec R6, 92 D2). They are arguments of the
model: a claim about every state is a claim about every legal choice. `BUS_MAP` is used by no rule (log 16). -/
structure Config where
  /-- COVER_CAP, elements of C: less than 2^63. -/
  coverCap : Fin (2 ^ 63)
  /-- FRAME_CAP, bytes of F: at most 2^32 + 3. -/
  frameCap : Fin (2 ^ 32 + 4)
  /-- CT_CAP, bytes of CT: at most 2^32 - 45. -/
  ctCap : Fin (2 ^ 32 - 44)
deriving DecidableEq, Repr

/-- DESIGN CHOICE (unsafe, log 1): the capacities that spec/95_test_vectors.md uses unless a vector says
otherwise; the spec fixes none. -/
def Config.vectors : Config where
  coverCap := ⟨10000, by decide⟩
  frameCap := ⟨64, by decide⟩
  ctCap := ⟨16, by decide⟩

/-- What a read of a byte that nobody has written since power-on returns (spec 93 U1, "any value"):
unconstrained, and fresh at each draw. Arguments: the draw (`State.draws`), the space number, the index. (log 2) -/
opaque Config.unwrittenByte : Nat → Nat → Nat → Byte

/-- Whether the new value of a byte had landed when a reset cut a command short (spec R182, 93 U3):
unconstrained, independently per byte. Arguments: the draw, the space number, the index. (log 10) -/
opaque Config.newValueLanded : Nat → Nat → Nat → Bool

end Sys2Proof
end

