-- ==== Sys2Proof/Machine/State.lean ====
section
/-! DEFINITION. The state of SHLE as plain data (spec R20), the turns of its agents (spec R16), the reasons a
step is refused, and the state after reset (spec R44, R180). -/

namespace Sys2Proof.Machine

/-- The storage spaces (spec R20, R60). -/
inductive Space where
  /-- Space 0, the cover memory (spec R39). -/
  | c
  /-- Space 1, the frame buffer (spec R40). -/
  | f
  /-- Space 2, the ciphertext buffer (spec R41). -/
  | ct
  /-- Space 3, the Salt field (spec R35). -/
  | salt
  /-- Space 4, the Nonce field (spec R36). -/
  | nonce
  /-- Space 5, the Tag field (spec R37). -/
  | tag
deriving DecidableEq, Repr

/-- The contents of one space: the bytes written since power-on, by index. An index that is not listed has
never been written and has no value to rely on (spec R44, 93 U1, log 2). -/
abbrev Memory := List Host.Cell

/-- The canonical form: indexes strictly rising. An unlisted index reads as no stored byte, so no entry can
equal what an unlisted one reads as. -/
abbrev Memory.wf (m : Memory) : Prop :=
  m.Pairwise (fun x y => x.1 < y.1)

/-- The result codes of STATUS.ERR; the codes 5 to 7 are not representable (spec R150, 93 U4). -/
inductive ErrCode where
  /-- Code 0: success. -/
  | ok
  /-- Code 1: CapacityError. -/
  | capacity
  /-- Code 2: FormatError. -/
  | format
  /-- Code 3: a register or a result exceeds a buffer. -/
  | resource
  /-- Code 4: the byte written to CMD is no command code. -/
  | illegal
deriving DecidableEq, Repr

/-- The STATUS register: the seven values of spec R29 and no other (DEDUCED from spec R29, 93 U4, safe, log 9).
`Status.byte` (Flags.lean) is the register's byte. -/
inductive Status where
  /-- 0x00: after reset, no command issued yet. -/
  | idle
  /-- 0x01: a command is in flight. -/
  | busy
  /-- The last command has completed with the code `e`. -/
  | done (e : ErrCode)
deriving DecidableEq, Repr

/-- An access of the host through the register port or the buffer port (spec R16, R69). Numbers and values are
what the host puts on the port, of any size (spec R33, R70). -/
inductive Access where
  /-- Register read, by register number. -/
  | readReg (n : Nat)
  /-- Register write; a write to register 0, CMD, is a command issue (spec R104). -/
  | writeReg (n : Nat) (v : Nat)
  /-- Buffer read: space number, byte index. -/
  | readByte (space index : Nat)
  /-- Buffer write: space number, byte index, byte. -/
  | writeByte (space index : Nat) (v : Byte)
deriving DecidableEq, Repr

/-- One turn: which agent moves and what it does (spec R16, R180; the list of turns is the model's own, log 4). -/
inductive Turn where
  /-- The host makes one access. -/
  | host (a : Access)
  /-- The host's `WAIT`: it reads STATUS until DONE = 1 (spec R101, log 11). -/
  | wait
  /-- The host ends its script if the STATUS it read last has ERR != 0 (spec R102, log 11). -/
  | stopOnError
  /-- The engine takes its step, if it has one (spec R105). -/
  | engine
  /-- Reset is asserted and released while powered (spec R180, R181, R182). -/
  | warmReset
  /-- Power-on reset (spec R180, R181). -/
  | powerOnReset
deriving DecidableEq, Repr

/-- SHLE (fields `cmd` to `tag`, spec R20), its parameters (`cfg`, spec R6) and the model's own fields
(`turns` to `draws`, log 3, 4, 7, 8). -/
structure State where
  /-- The capacities; no step writes them (spec R6). -/
  cfg : Config
  /-- Register 0, CMD (spec R28). -/
  cmd : Byte
  /-- Register 1, STATUS (spec R29). -/
  status : Status
  /-- Register 2, CLEN (spec R22). -/
  clen : Word
  /-- Register 3, FLEN (spec R23). -/
  flen : Word
  /-- Register 4, CTLEN (spec R24). -/
  ctlen : Word
  /-- Register 5, POS (spec R25). -/
  pos : Word
  /-- Register 6, NBYTES (spec R25). -/
  nbytes : Word
  /-- Register 7, PLEN (spec R32). -/
  plen : Half
  /-- Register 8, REQ (spec R30). -/
  req : Word
  /-- Register 9, AVAIL (spec R31). -/
  avail : Word
  /-- Space 0, C (spec R39). -/
  c : Memory
  /-- Space 1, F (spec R40). -/
  f : Memory
  /-- Space 2, CT (spec R41). -/
  ct : Memory
  /-- Space 3, SALT (spec R35). -/
  salt : Memory
  /-- Space 4, NONCE (spec R36). -/
  nonce : Memory
  /-- Space 5, TAG (spec R37). -/
  tag : Memory
  /-- The turns still to come, first one next (log 4). -/
  turns : List Turn
  /-- What the host's reads returned, newest first, zero-extended to 64 bits (spec R33, log 8). -/
  reads : List Word
  /-- From an issue until a read of STATUS has returned DONE = 1 (spec R187, log 7). -/
  awaiting : Bool
  /-- How many draws of free values have been made (log 3). -/
  draws : Nat
deriving DecidableEq, Repr

/-- Why SHLE stops with a fault: never. It has no trap (spec R15, R160) and no stuck state (spec R105), and an error
is a completion with a non-zero code. The type has no constructor (DEDUCED, safe, log 12). -/
inductive Fault
deriving DecidableEq, Repr

/-- Why the model gives no next state. -/
inductive Refusal where
  /-- An instruction that has no meaning yet, by its mnemonic. Raised by no arm of `exec`. Safe. -/
  | notModelled (mnemonic : String)
  /-- The host made an access other than a read of STATUS between an issue and its observed completion.
  Raised by `hostAccess` (Ports.lean): "A model refuses such a host step" (spec R187, 93 U2). Safe. -/
  | hostAccessWhileBusy
deriving DecidableEq, Repr

/-- The outcome of a step of this machine. -/
abbrev Result := Host.Outcome State Fault Refusal

/-- The state after a power-on reset of an SHLE with the capacities `cfg` (spec R44, R180): every register 0, no byte
of any space written. -/
def State.resetWith (cfg : Config) : State where
  cfg := cfg
  cmd := 0#8
  status := .idle
  clen := 0#64
  flen := 0#64
  ctlen := 0#64
  pos := 0#64
  nbytes := 0#64
  plen := 0#32
  req := 0#64
  avail := 0#64
  c := []
  f := []
  ct := []
  salt := []
  nonce := []
  tag := []
  turns := []
  reads := []
  awaiting := false
  draws := 0

/-- The state after reset (spec R44, R180), with the capacities of spec/95_test_vectors.md (DESIGN CHOICE, unsafe,
log 1). -/
def State.reset : State := State.resetWith Config.vectors

end Sys2Proof.Machine
end

