-- ==== Sys2Proof/Machine/Flags.lean ====
section
/-! DEFINITION. The flags of SHLE, which are the fields of STATUS (spec R27, R29), and their byte. -/

namespace Sys2Proof.Machine

/-- The number of a result code (spec R150). -/
def ErrCode.code : ErrCode → Nat
  | .ok => 0
  | .capacity => 1
  | .format => 2
  | .resource => 3
  | .illegal => 4

/-- STATUS.BUSY, bit 0 (spec R29). -/
def Status.busyBit : Status → Bool
  | .idle => false
  | .busy => true
  | .done _ => false

/-- STATUS.DONE, bit 1 (spec R29). -/
def Status.doneBit : Status → Bool
  | .idle => false
  | .busy => false
  | .done _ => true

/-- STATUS.ERR, bits 4:2, 0 from reset or issue until completion (spec R29). -/
def Status.errField : Status → Nat
  | .idle => 0
  | .busy => 0
  | .done e => e.code

/-- The byte of STATUS: BUSY in bit 0, DONE in bit 1, ERR in bits 4:2, bits 7:5 zero (spec R29). -/
def Status.byte (t : Status) : Byte :=
  BitVec.ofNat 8 (t.busyBit.toNat + 2 * t.doneBit.toNat + 4 * t.errField)

end Sys2Proof.Machine
end

