-- ==== Sys2Proof/Machine/Ops.lean ====
section
/-! DEFINITION. The named operations over spaces and registers (spec R13), and the one operation that ends a
command, with or without an error (spec R15, R105, R160). -/

namespace Sys2Proof.Machine

/-- The byte written at an index, or none if nobody has written it since power-on. -/
def Memory.read : Memory → Nat → Option Byte
  | [], _ => none
  | (k, v) :: m, a => if k = a then some v else Memory.read m a

/-- The entries of consecutive bytes from index `a` on. -/
def Memory.entries (a : Nat) (bytes : List Byte) : Memory :=
  (bytes.zipIdx a).map (fun p => (p.2, p.1))

/-- Writes consecutive bytes from index `a` on and leaves every other index as it is (spec R13, R66). -/
def Memory.write (m : Memory) (a : Nat) (bytes : List Byte) : Memory :=
  m.filter (fun e => e.1 < a) ++ Memory.entries a bytes ++ m.filter (fun e => a + bytes.length ≤ e.1)

/-- The number of a space (spec R20, R60). -/
def Space.number : Space → Nat
  | .c => 0
  | .f => 1
  | .ct => 2
  | .salt => 3
  | .nonce => 4
  | .tag => 5

/-- The space of a number; there is none above 5 (spec R70). -/
def Space.ofNumber : Nat → Option Space
  | 0 => some .c
  | 1 => some .f
  | 2 => some .ct
  | 3 => some .salt
  | 4 => some .nonce
  | 5 => some .tag
  | _ => none

/-- The contents of a space. -/
def State.mem (s : State) : Space → Memory
  | .c => s.c
  | .f => s.f
  | .ct => s.ct
  | .salt => s.salt
  | .nonce => s.nonce
  | .tag => s.tag

/-- Replaces the contents of a space; no two spaces alias (spec R20). -/
def State.setMem (s : State) (sp : Space) (m : Memory) : State :=
  match sp with
  | .c => { s with c := m }
  | .f => { s with f := m }
  | .ct => { s with ct := m }
  | .salt => { s with salt := m }
  | .nonce => { s with nonce := m }
  | .tag => { s with tag := m }

/-- The capacity of a space (spec R60, with SALT_LEN = 16, NONCE_LEN = 12 and TAG_LEN = 16 of spec R5). -/
def Config.capacity (cfg : Config) : Space → Nat
  | .c => cfg.coverCap
  | .f => cfg.frameCap
  | .ct => cfg.ctCap
  | .salt => 16
  | .nonce => 12
  | .tag => 16

/-- `S[i]` (spec R13): the byte written there, or a free value if nobody has written it (spec 93 U1, log 2). -/
def State.peek (s : State) (sp : Space) (i : Nat) : Byte :=
  ((s.mem sp).read i).getD (Config.unwrittenByte s.draws sp.number i)

/-- `MemRead(S, a, n)` (spec R13). -/
def State.memRead (s : State) (sp : Space) (a n : Nat) : List Byte :=
  (List.range n).map (fun j => s.peek sp (a + j))

/-- `MemWrite(S, a, n, bytes)` with `n` the number of bytes (spec R13). -/
def State.memWrite (s : State) (sp : Space) (a : Nat) (bytes : List Byte) : State :=
  s.setMem sp ((s.mem sp).write a bytes)

/-- `FLEN <- w` (spec R23). -/
def State.setFlen (s : State) (w : Word) : State := { s with flen := w }

/-- `CTLEN <- w` (spec R24). -/
def State.setCtlen (s : State) (w : Word) : State := { s with ctlen := w }

/-- `PLEN <- w` (spec R32). -/
def State.setPlen (s : State) (w : Half) : State := { s with plen := w }

/-- `REQ <- min(req, 2^64 - 1); AVAIL <- avail`, the counts of a capacity check (spec R30, R31). Only EXTRACT can
reach the saturation (spec R117, log 15). -/
def State.setCounts (s : State) (req avail : Nat) : State :=
  { s with req := BitVec.ofNat 64 (min req (2 ^ 64 - 1)), avail := BitVec.ofNat 64 avail }

/-- `complete(e)` (spec R15, R105): `STATUS.ERR <- e; STATUS.BUSY <- 0; STATUS.DONE <- 1` and nothing else of SHLE.
An error completion is this with a code other than `ok` (spec R160): no register saves anything, no mode changes,
control goes nowhere, and there is no return from it (spec R163). It also advances the model's draw counter, so that the
next read of an unwritten byte is a fresh draw (log 3). -/
def State.complete (s : State) (e : ErrCode) : State :=
  { s with status := .done e, draws := s.draws + 1 }

/-- The whole effect of an illegal command byte: `REQ <- 0; AVAIL <- 0; complete(ERR_ILLEGAL)` (spec R100, R154). -/
def State.completeIllegal (s : State) : State :=
  (s.setCounts 0 0).complete .illegal

/-- Issue of the byte `v` (spec R104): `CMD <- v; STATUS.BUSY <- 1; STATUS.DONE <- 0; STATUS.ERR <- 0` and nothing else
of SHLE. From here on the host awaits DONE (spec R187, log 7). -/
def State.issue (s : State) (v : Byte) : State :=
  { s with cmd := v, status := .busy, awaiting := true }

end Sys2Proof.Machine
end

