-- ==== Sys2Proof/Machine/Ports.lean ====
section
/-! DEFINITION. The host's register port and buffer port (spec R33, R69, R70), and the rule on access while busy
(spec R187). -/

namespace Sys2Proof.Machine

/-- What a read of a register number returns, zero-extended to the data path; numbers above 9 read 0
(spec R33). -/
def State.regValue (s : State) : Nat → Word
  | 0 => s.cmd.setWidth 64
  | 1 => s.status.byte.setWidth 64
  | 2 => s.clen
  | 3 => s.flen
  | 4 => s.ctlen
  | 5 => s.pos
  | 6 => s.nbytes
  | 7 => s.plen.setWidth 64
  | 8 => s.req
  | 9 => s.avail
  | _ => 0#64

/-- A register write: the low bits of the value (spec R33). A write to CMD issues a command (spec R104); registers
1, 7, 8, 9 and numbers above 9 ignore it. -/
def State.writeReg (s : State) (n v : Nat) : State :=
  match n with
  | 0 => s.issue (BitVec.ofNat 8 v)
  | 2 => { s with clen := BitVec.ofNat 64 v }
  | 3 => { s with flen := BitVec.ofNat 64 v }
  | 4 => { s with ctlen := BitVec.ofNat 64 v }
  | 5 => { s with pos := BitVec.ofNat 64 v }
  | 6 => { s with nbytes := BitVec.ofNat 64 v }
  | _ => s

/-- The space and index of a buffer access, if there is such a byte: the space number at most 5 and the index below
the capacity, whatever the length registers say (spec R70). -/
def State.locate (s : State) (space index : Nat) : Option Space :=
  match Space.ofNumber space with
  | some sp => if index < Config.capacity s.cfg sp then some sp else none
  | none => none

/-- What a buffer read returns; out of range it reads 0 (spec R70). -/
def State.bufferValue (s : State) (space index : Nat) : Byte :=
  match s.locate space index with
  | some sp => s.peek sp index
  | none => 0#8

/-- A buffer write of one byte; out of range it writes nothing (spec R70). -/
def State.writeByte (s : State) (space index : Nat) (v : Byte) : State :=
  match s.locate space index with
  | some sp => s.memWrite sp index [v]
  | none => s

/-- The host takes the value a read returned (log 8). -/
def State.noteRead (s : State) (v : Word) : State :=
  { s with reads := v :: s.reads }

/-- A read of STATUS; once it has returned DONE = 1 the host no longer awaits a completion (spec R187). -/
def State.readStatus (s : State) : State :=
  { s.noteRead (s.regValue 1) with awaiting := s.awaiting && !s.status.doneBit }

/-- Whether spec R187 forbids the host any access but a read of STATUS. -/
def State.locked (s : State) : Bool :=
  s.awaiting || s.status.busyBit

/-- One host access (spec R16, R69). While a command is in flight or its completion not yet observed, an access
other than a read of STATUS is refused (spec R187, 93 U2). A buffer read is one draw (log 3). -/
def hostAccess (a : Access) (s : State) : Result :=
  if a = .readReg 1 then .next s.readStatus
  else if s.locked then .refused .hostAccessWhileBusy
  else
    match a with
    | .readReg n => .next (s.noteRead (s.regValue n))
    | .writeReg n v => .next (s.writeReg n v)
    | .readByte space index =>
      .next { s.noteRead ((s.bufferValue space index).setWidth 64) with draws := s.draws + 1 }
    | .writeByte space index v => .next (s.writeByte space index v)

end Sys2Proof.Machine
end

