-- ==== Sys2Proof/Syntax.lean ====
section
/-! DEFINITION. The commands of SHLE: one constructor per row of spec/opcode_table.json. -/

namespace Sys2Proof

/-- The whole command set (spec R91, R166). Operands are in fixed registers and spaces (spec R97), so no
constructor has an argument. -/
inductive Instr where
  /-- EMBED, code 0x01, spec R111. -/
  | embed
  /-- EXTRACT, code 0x02, spec R116. -/
  | extract
  /-- MARSHAL, code 0x03, spec R131. -/
  | marshal
  /-- PARSE, code 0x04, spec R136. -/
  | parse
deriving DecidableEq, Repr

end Sys2Proof
end

