-- ==== Sys2Proof/Decode.lean ====
section
/-! DEFINITION. The command format CMD8 (spec R90): the decoder, written as the opcode table's rows, and the
encoder. -/

namespace Sys2Proof

/-- Why bytes are no command. `noByte`: there is no byte to read (the model's own totality, log 18).
`illegalCode b`: `b` is none of the four codes (spec R91, R100); the engine completes it with ERR_ILLEGAL. -/
inductive DecodeError where
  | noByte
  | illegalCode (b : Byte)
deriving DecidableEq, Repr

/-- One row of spec/opcode_table.json: `code & mask = pattern` reads as the command. -/
structure OpcodeRow where
  mask : Byte
  pattern : Byte
  instr : Instr
deriving DecidableEq, Repr

/-- The opcode table (spec R91): the whole byte is compared, under mask 0xFF (spec R90). -/
def opcodeTable : List OpcodeRow :=
  [ { mask := 0xFF#8, pattern := 0x01#8, instr := .embed }
  , { mask := 0xFF#8, pattern := 0x02#8, instr := .extract }
  , { mask := 0xFF#8, pattern := 0x03#8, instr := .marshal }
  , { mask := 0xFF#8, pattern := 0x04#8, instr := .parse } ]

/-- The command a byte encodes, or the rejection of that byte by name (spec R90, R91, R100). -/
def decodeByte (b : Byte) : Except DecodeError Instr :=
  match opcodeTable.find? (fun r => b &&& r.mask == r.pattern) with
  | some r => .ok r.instr
  | none => .error (.illegalCode b)

/-- Decoding, total on any bytes: the command and the bytes after it. Every command is one byte long (spec R90). -/
def decode : List Byte → Except DecodeError (Instr × List Byte)
  | [] => .error .noByte
  | b :: rest => (decodeByte b).map (·, rest)

/-- The word of a command (spec R91, 8 bits written out from spec/opcode_table.json's encodings). -/
def encode : Instr → List Byte
  | .embed => [0b00000001#8]
  | .extract => [0b00000010#8]
  | .marshal => [0b00000011#8]
  | .parse => [0b00000100#8]

/-- The instruction the decoder reads from a table word: the low `nbits` bits of `w`, the first byte being bits
7..0 (the only byte a command has, spec R90). -/
def decodeTableWord (nbits w : Nat) : Option Instr :=
  match decode [BitVec.ofNat 8 (w % 2 ^ nbits)] with
  | .ok (i, _) => some i
  | .error _ => none

end Sys2Proof
end

