-- ==== Sys2Proof/Machine/Bits.lean ====
section
/-! DEFINITION. The bit and byte orders of the wire format (spec R10 to R12, R61, R62): serialising bytes into
bits, packing bits into bytes, and the big-endian 32-bit Header. -/

namespace Sys2Proof.Machine

/-- The eight bits of a byte, bit 7 first (spec R62). -/
def byteBits (b : Byte) : List Bool :=
  [b.getLsbD 7, b.getLsbD 6, b.getLsbD 5, b.getLsbD 4, b.getLsbD 3, b.getLsbD 2, b.getLsbD 1, b.getLsbD 0]

/-- `BitsOf` of spec R10: byte by byte in order, most-significant bit first. -/
def bitsOf (s : List Byte) : List Bool :=
  s.flatMap byteBits

/-- One byte from eight bits: the sum of `b[t] * 2^(7 - t)`, the first bit becoming bit 7 (spec R11). -/
def packByte (b0 b1 b2 b3 b4 b5 b6 b7 : Bool) : Byte :=
  BitVec.ofNat 8 (b0.toNat * 2 ^ 7 + b1.toNat * 2 ^ 6 + b2.toNat * 2 ^ 5 + b3.toNat * 2 ^ 4
    + b4.toNat * 2 ^ 3 + b5.toNat * 2 ^ 2 + b6.toNat * 2 + b7.toNat)

/-- `BytesOf` of spec R11, undefined (`none`) for a length that is not a multiple of 8 (spec R11, R120, log 17). -/
def bytesOf : List Bool → Option (List Byte)
  | [] => some []
  | b0 :: b1 :: b2 :: b3 :: b4 :: b5 :: b6 :: b7 :: rest =>
    (bytesOf rest).map (packByte b0 b1 b2 b3 b4 b5 b6 b7 :: ·)
  | _ => none

/-- `u32_be` of spec R12: four bytes, most-significant first. Rules apply it only to a `v` of at most
2^32 - 1 (spec R99). -/
def u32be (v : Nat) : List Byte :=
  [BitVec.ofNat 8 (v / 2 ^ 24), BitVec.ofNat 8 (v / 2 ^ 16), BitVec.ofNat 8 (v / 2 ^ 8), BitVec.ofNat 8 v]

/-- `be32` of spec R12 on a 4-byte sequence: the number whose base-256 digits are the bytes, most-significant
first. -/
def be32 (s : List Byte) : Nat :=
  s.foldl (fun acc b => acc * 2 ^ 8 + b.toNat) 0

end Sys2Proof.Machine
end

