-- ==== Sys2Proof/Machine/Operands.lean ====
section
/-! DEFINITION. The two ways a command reaches its bit operands: reading bytes from, and writing bits to, the
least-significant bits of the cover (spec R14, R63, R98). -/

namespace Sys2Proof.Machine

/-- `C[k] & 1` (spec R14). -/
def State.lsb (s : State) (k : Nat) : Bool :=
  (s.peek .c k).getLsbD 0

/-- The byte packed from the least-significant bits of the eight elements from `k` on, first bit in bit 7
(spec R14, R62). -/
def State.lsbByte (s : State) (k : Nat) : Byte :=
  packByte (s.lsb k) (s.lsb (k + 1)) (s.lsb (k + 2)) (s.lsb (k + 3))
    (s.lsb (k + 4)) (s.lsb (k + 5)) (s.lsb (k + 6)) (s.lsb (k + 7))

/-- `LsbRead(start, n)` (spec R14). -/
def State.lsbRead (s : State) (start n : Nat) : List Byte :=
  (List.range n).map (fun j => s.lsbByte (start + 8 * j))

/-- A cover element with its bit 0 replaced: `(c & 0xFE) | b` (spec R14, R66). -/
def withLsb (c : Byte) (b : Bool) : Byte :=
  (c &&& 0xFE#8) ||| (if b then 1#8 else 0#8)

/-- `LsbWrite(bits)` (spec R14): bit `i` goes to bit 0 of element `i`, and no other element changes. -/
def State.lsbWrite (s : State) (bits : List Bool) : State :=
  s.memWrite .c 0 (bits.zipIdx.map (fun p => withLsb (s.peek .c p.2) p.1))

/-- The Header read from the cover, `be32(LsbRead(0, 4))` (spec R98). -/
def State.coverHeader (s : State) : Nat :=
  be32 (s.lsbRead 0 4)

end Sys2Proof.Machine
end

