-- ==== Sys2Proof/Machine/BitEngine.lean ====
section
/-! DEFINITION. The bit engine: EMBED (spec R111) and EXTRACT (spec R116). Each meaning is the command's completion
step (spec R105), line by line as its pseudocode has it. -/

namespace Sys2Proof.Machine

/-- EMBED (spec R111, R112): writes the bits of F[0 .. FLEN-1] into bit 0 of C[0 .. 8*FLEN-1]. -/
def execEmbed (s : State) : Result :=
  .next <|
    if s.cfg.coverCap.val < s.clen.toNat ∨ s.cfg.frameCap.val < s.flen.toNat then
      (s.setCounts 0 0).complete .resource
    else
      let t := s.setCounts (8 * s.flen.toNat) s.clen.toNat
      if s.clen.toNat < 8 * s.flen.toNat then t.complete .capacity
      else (t.lsbWrite (bitsOf (t.memRead .f 0 s.flen.toNat))).complete .ok

/-- EXTRACT (spec R116, R117): packs bit 0 of C[POS .. POS+8*NBYTES-1] into F[0 .. NBYTES-1]. The sum
`POS + 8*NBYTES` is exact and REQ takes it saturated. -/
def execExtract (s : State) : Result :=
  .next <|
    if s.cfg.coverCap.val < s.clen.toNat ∨ s.cfg.frameCap.val < s.nbytes.toNat then
      (s.setCounts 0 0).complete .resource
    else
      let need := s.pos.toNat + 8 * s.nbytes.toNat
      let t := s.setCounts need s.clen.toNat
      if s.clen.toNat < need then t.complete .capacity
      else ((t.memWrite .f 0 (t.lsbRead s.pos.toNat s.nbytes.toNat)).setFlen s.nbytes).complete .ok

end Sys2Proof.Machine
end

