-- ==== Sys2Proof/Machine/Frame.lean ====
section
/-! DEFINITION. The frame: MARSHAL (spec R131) and PARSE (spec R136). Each meaning is the command's completion step
(spec R105), line by line as its pseudocode has it. -/

namespace Sys2Proof.Machine

/-- Line 2 of MARSHAL (spec R131, R92): Header, Salt, Nonce, Tag and Ciphertext into F, and FLEN. The spaces read and
the space written are disjoint, so every read may be of the state at issue (spec R71). -/
def State.assembleFrame (s : State) : State :=
  let l := s.ctlen.toNat
  (((((s.memWrite .f 0 (u32be (44 + l))).memWrite .f 4 (s.memRead .salt 0 16)).memWrite .f 20
    (s.memRead .nonce 0 12)).memWrite .f 32 (s.memRead .tag 0 16)).memWrite .f 48 (s.memRead .ct 0 l)).setFlen
    (BitVec.ofNat 64 (48 + l))

/-- MARSHAL (spec R131, R132). Both comparisons are exact. -/
def execMarshal (s : State) : Result :=
  .next <|
    let t := s.setCounts 0 0
    if s.cfg.ctCap.val < s.ctlen.toNat ∨ s.cfg.frameCap.val < 48 + s.ctlen.toNat then t.complete .resource
    else t.assembleFrame.complete .ok

/-- Line 7 of PARSE (spec R136): the body split into SALT, NONCE, TAG and CT, and CTLEN. -/
def State.splitBody (s : State) (body : List Byte) : State :=
  ((((s.memWrite .salt 0 (body.take 16)).memWrite .nonce 0 ((body.drop 16).take 12)).memWrite .tag 0
    ((body.drop 28).take 16)).memWrite .ct 0 (body.drop 44)).setCtlen (BitVec.ofNat 64 (body.length - 44))

/-- PARSE (spec R136, R137). `PLEN + 4` and `8 * total` are exact, never reduced modulo 2^32. PLEN keeps the header
value from line 3 on, whatever the outcome (spec R32). -/
def execParse (s : State) : Result :=
  .next <|
    if s.cfg.coverCap.val < s.clen.toNat then (s.setCounts 0 0).complete .resource
    else if s.clen.toNat < 32 then (s.setCounts 32 s.clen.toNat).complete .capacity
    else
      let plen := s.coverHeader
      let t := (s.setPlen (BitVec.ofNat 32 plen)).setCounts (8 * (plen + 4)) s.clen.toNat
      if s.clen.toNat < 8 * (plen + 4) then t.complete .capacity
      else if plen < 44 then t.complete .format
      else if s.cfg.ctCap.val < plen - 44 then t.complete .resource
      else (t.splitBody (t.lsbRead 32 plen)).complete .ok

end Sys2Proof.Machine
end

