-- ==== Sys2Proof/Machine/Dispatch.lean ====
section
/-! DEFINITION. The meaning of each command: one arm per constructor of `Instr`, one row of spec/opcode_table.json. -/

namespace Sys2Proof.Machine

/-- The whole effect of a command, applied at its completion (spec R105). -/
def exec (i : Instr) (s : State) : Host.Outcome State Fault Refusal :=
  match i with
  | .embed => Sys2Proof.Machine.execEmbed s
  | .extract => Sys2Proof.Machine.execExtract s
  | .marshal => Sys2Proof.Machine.execMarshal s
  | .parse => Sys2Proof.Machine.execParse s

end Sys2Proof.Machine
end

