-- ==== Sys2Proof/Machine/Engine.lean ====
section
/-! DEFINITION. The engine's one step, the completion of the command in flight (spec R105). -/

namespace Sys2Proof.Machine

/-- Completion of the command named by CMD: the command's whole effect, or that of an illegal byte (spec R100, R105). -/
def completeInFlight (s : State) : Result :=
  match decode [s.cmd] with
  | .ok (i, _) => exec i s
  | .error _ => .next s.completeIllegal

/-- The engine's turn: a busy engine completes, an idle one has no enabled step (spec R105). -/
def engineTurn (s : State) : Result :=
  if s.status = .busy then completeInFlight s else .next s

end Sys2Proof.Machine
end

