-- ==== Sys2Proof/Machine/Reset.lean ====
section
/-! DEFINITION. Reset as an event (spec R180 to R182): power-on reset, and warm reset of an idle or a busy engine. -/

namespace Sys2Proof.Machine

/-- Every register at its reset value, and every space as it is (spec R44, R180). The host's script and log go on,
it awaits no completion, and free values are drawn afresh (log 3, 10). -/
def State.resetRegisters (s : State) : State :=
  { s with
    cmd := 0#8, status := .idle, clen := 0#64, flen := 0#64, ctlen := 0#64, pos := 0#64, nbytes := 0#64,
    plen := 0#32, req := 0#64, avail := 0#64, awaiting := false, draws := s.draws + 1 }

/-- A space whose writes were cut short: each byte of `new` has landed, or is as it was in `old` (spec R182, 93 U3).
Commands only add or replace bytes, so every byte of `old` is listed in `new`. -/
def Memory.cutShort (landed : Nat → Bool) (old new : Memory) : Memory :=
  new.filterMap (fun e => if landed e.1 then some e else (Memory.read old e.1).map (fun v => (e.1, v)))

/-- The spaces left by a command that would have taken `s` to `t`, each byte old or new (spec R182). -/
def State.cutSpaces (s t : State) : State :=
  { s with
    c := Memory.cutShort (Config.newValueLanded s.draws Space.c.number) s.c t.c
    f := Memory.cutShort (Config.newValueLanded s.draws Space.f.number) s.f t.f
    ct := Memory.cutShort (Config.newValueLanded s.draws Space.ct.number) s.ct t.ct
    salt := Memory.cutShort (Config.newValueLanded s.draws Space.salt.number) s.salt t.salt
    nonce := Memory.cutShort (Config.newValueLanded s.draws Space.nonce.number) s.nonce t.nonce
    tag := Memory.cutShort (Config.newValueLanded s.draws Space.tag.number) s.tag t.tag }

/-- Reset while powered: a command in flight is abandoned, its spaces part-written (spec R182); an idle engine's spaces
are kept (spec R181). -/
def State.warmReset (s : State) : State :=
  if s.status = .busy then
    match completeInFlight s with
    | .next t => (s.cutSpaces t).resetRegisters
    | _ => s.resetRegisters
  else s.resetRegisters

/-- Power-on reset: every register at its reset value and every byte of every space unspecified (spec R44, R181). -/
def State.powerOnReset (s : State) : State :=
  { s.resetRegisters with c := [], f := [], ct := [], salt := [], nonce := [], tag := [] }

end Sys2Proof.Machine
end

