-- ==== Sys2Proof/Machine/Turns.lean ====
section
/-! DEFINITION. Whose turn it is and what it does (spec R16; the list of turns is the model's own, log 4). -/

namespace Sys2Proof.Machine

/-- The host's `WAIT` (spec R101), still pending when it begins. While the engine is busy its polls return DONE = 0 until
the engine has completed; once DONE = 1 the read returns it and the wait is over; with no command ever issued
it reads on for ever. -/
def waitTurn (rest : List Turn) (s : State) : Result :=
  match s.status with
  | .busy => completeInFlight { s with turns := .wait :: rest }
  | .done _ => .next { s.readStatus with turns := rest }
  | .idle => .next { s.readStatus with turns := .wait :: rest }

/-- Whether a turn is the host's. -/
def Turn.ofHost : Turn → Bool
  | .host _ => true
  | .wait => true
  | .stopOnError => true
  | .engine => false
  | .warmReset => false
  | .powerOnReset => false

/-- "stop on ERR != 0" (spec R102): the host drops the rest of its script if bits 4:2 of the value it read last are
not 0. The turns of the engine and of reset stay. -/
def State.stopOnError (s : State) : State :=
  match s.reads with
  | [] => s
  | v :: _ =>
    if v.extractLsb' 2 3 = 0#3 then s else { s with turns := s.turns.filter (fun t => !t.ofHost) }

/-- One turn, taken off the list (spec R16). -/
def runTurn (t : Turn) (s : State) : Result :=
  match t with
  | .host a => hostAccess a s
  | .wait => waitTurn s.turns s
  | .stopOnError => .next s.stopOnError
  | .engine => engineTurn s
  | .warmReset => .next s.warmReset
  | .powerOnReset => .next s.powerOnReset

/-- One step: the next turn, or, when no turn is listed, the engine's (so a command in flight always completes,
spec R105, R194, and an idle SHLE stays as it is). -/
def advance (s : State) : Result :=
  match s.turns with
  | [] => engineTurn s
  | t :: rest => runTurn t { s with turns := rest }

/-- The state in which the byte `v` has just been issued and the engine moves next (log 5). -/
def State.issueNext (s : State) (v : Byte) : State :=
  { s.issue v with turns := .engine :: s.turns }

end Sys2Proof.Machine
end

