-- ==== Sys2Proof/Machine/Script.lean ====
section
/-! DEFINITION. The host script notation of spec R101 and the pseudo-commands of spec R102, as lists of turns. -/

namespace Sys2Proof.Machine

/-- `WR <reg>, <value>` (spec R101). -/
def scriptWr (reg value : Nat) : List Turn := [.host (.writeReg reg value)]

/-- `RD <reg>` (spec R101). -/
def scriptRd (reg : Nat) : List Turn := [.host (.readReg reg)]

/-- `ST <space>[<i>], <b0> <b1> ...` (spec R101). -/
def scriptSt (sp : Space) (i : Nat) (bytes : List Byte) : List Turn :=
  (bytes.zipIdx i).map (fun p => .host (.writeByte sp.number p.2 p.1))

/-- `FILL <space>[<i>..<i+n-1>], <b>` (spec R101). -/
def scriptFill (sp : Space) (i n : Nat) (b : Byte) : List Turn := scriptSt sp i (List.replicate n b)

/-- `LD <space>[<i>..<i+n-1>]` (spec R101). -/
def scriptLd (sp : Space) (i n : Nat) : List Turn :=
  (List.range n).map (fun k => .host (.readByte sp.number (i + k)))

/-- A command line: `WR CMD, <code>` and `WAIT` (spec R101). -/
def scriptCommand (i : Instr) : List Turn :=
  (encode i).flatMap (fun b => scriptWr 0 b.toNat) ++ [.wait]

/-- `ENCODE` from step 2 on (spec R102): the fields, MARSHAL, the cover, EMBED, and the read back. Step 1, the
cryptography, is outside SHLE (spec R4). -/
def scriptEncode (salt nonce tag ct cover : List Byte) : List Turn :=
  scriptSt .salt 0 salt ++ scriptSt .nonce 0 nonce ++ scriptSt .tag 0 tag ++ scriptSt .ct 0 ct
    ++ scriptWr 4 ct.length ++ scriptCommand .marshal ++ [.stopOnError]
    ++ scriptSt .c 0 cover ++ scriptWr 2 cover.length ++ scriptCommand .embed ++ [.stopOnError]
    ++ scriptLd .c 0 cover.length

/-- `DECODE` steps 1 to 3 (spec R102): the cover, PARSE, and the fields; `ctlen` is the length the host reads in
CTLEN. Step 4, the cryptography, is outside SHLE (spec R4). -/
def scriptDecode (cover : List Byte) (ctlen : Nat) : List Turn :=
  scriptSt .c 0 cover ++ scriptWr 2 cover.length ++ scriptCommand .parse ++ [.stopOnError]
    ++ scriptLd .salt 0 16 ++ scriptLd .nonce 0 12 ++ scriptLd .tag 0 16 ++ scriptRd 4 ++ scriptLd .ct 0 ctlen

end Sys2Proof.Machine
end

