-- ==== Sys2Proof/Machine/Step.lean ====
section
/-! DEFINITION. The step of the machine, and how the host's instruments place a command. -/

namespace Sys2Proof.Machine

/-- One step of one agent (spec R16): host access, command issue, command completion, or reset. -/
def step (s : State) : Host.Outcome State Fault Refusal := advance s

/-- `s` with the command word `w` in flight and the engine's turn next, so that the very next step runs it. SHLE
fetches no instructions (spec R26): a command is issued by the host's write to CMD (spec R104), which this stands
for (log 5). -/
def State.withFetchWord (s : State) (nbits w : Nat) : State :=
  s.issueNext (BitVec.ofNat 8 (w % 2 ^ nbits))

end Sys2Proof.Machine
end

