-- ==== Sys2Proof/Safety.lean ====
section
/-! DEFINITION. What holds of every SHLE in use: the invariant of the machine, and the host that keeps spec R187. -/

namespace Sys2Proof.Machine

/-- The byte of CMD is one of the four codes (spec R91). -/
def State.CmdLegal (s : State) : Prop := ∃ i rest, decode [s.cmd] = .ok (i, rest)

/-- Every space is in canonical form and lists no index at or above its capacity (spec R60, R70). -/
def State.SpacesOk (s : State) : Prop :=
  ∀ sp : Space, (s.mem sp).wf ∧ ∀ e ∈ s.mem sp, e.1 < Config.capacity s.cfg sp

/-- What STATUS says of the other registers (spec R29, R44, R150 to R154, R187). -/
def State.StatusOk (s : State) : Prop :=
  match s.status with
  | .idle =>
    s.cmd = 0#8 ∧ s.req = 0#64 ∧ s.avail = 0#64 ∧ s.plen = 0#32 ∧ s.awaiting = false
  | .busy => s.awaiting = true
  | .done .ok => s.CmdLegal ∧ s.req.toNat ≤ s.avail.toNat
  | .done .capacity => s.CmdLegal ∧ s.avail.toNat < s.req.toNat
  | .done .format =>
    s.cmd = 4#8 ∧ s.plen.toNat < 44 ∧ s.req.toNat = 8 * (s.plen.toNat + 4) ∧ s.req.toNat ≤ s.avail.toNat
  | .done .resource =>
    s.CmdLegal ∧
      (s.req = 0#64 ∧ s.avail = 0#64 ∨
        s.cmd = 4#8 ∧ 44 + s.cfg.ctCap.val < s.plen.toNat ∧ s.req.toNat = 8 * (s.plen.toNat + 4) ∧
          s.req.toNat ≤ s.avail.toNat)
  | .done .illegal => ¬ s.CmdLegal ∧ s.req = 0#64 ∧ s.avail = 0#64

/-- The invariant of the machine: the spaces are canonical and within their capacities, AVAIL never exceeds COVER_CAP
(spec R31, R153), and STATUS agrees with CMD, REQ, AVAIL and PLEN. -/
structure State.Inv (s : State) : Prop where
  spaces : s.SpacesOk
  avail_le : s.avail.toNat ≤ s.cfg.coverCap.val
  status : s.StatusOk

/-- What the host may do, by how far the last command has come (spec R187): no command awaited, a command in
flight, a command completed but not yet seen to be. -/
inductive Phase where
  | clear
  | flight
  | unseen
deriving DecidableEq, Repr

/-- The phase a state is in. -/
def State.phase (s : State) : Phase :=
  if s.status = .busy then .flight else if s.awaiting then .unseen else .clear

/-- The phase after a turn taken in a phase, or none if spec R187 forbids the turn there. -/
def Phase.after : Phase → Turn → Option Phase
  | .clear, .host (.writeReg 0 _) => some .flight
  | .clear, _ => some .clear
  | .flight, .host (.readReg 1) => some .flight
  | .flight, .host _ => none
  | .flight, .engine => some .unseen
  | .flight, .stopOnError => some .flight
  | .flight, _ => some .clear
  | .unseen, .host (.readReg 1) => some .clear
  | .unseen, .host _ => none
  | .unseen, .engine => some .unseen
  | .unseen, .stopOnError => some .unseen
  | .unseen, _ => some .clear

/-- A list of turns that, begun in a phase, makes no access that spec R187 forbids. -/
def polite : Phase → List Turn → Bool
  | _, [] => true
  | p, t :: rest =>
    match p.after t with
    | some q => polite q rest
    | none => false

/-- A run that is never refused and never faults, from `s`, however long. -/
def NeverStops (s : State) : Prop := ∀ n, ∃ t, Sys2Proof.core.run n s = .next t

end Sys2Proof.Machine
end

