-- ==== Sys2Proof/WellFormed.lean ====
section
/-! DEFINITION. What is well formed: a command (nothing to check, spec R90), a command word, and a frame of the
wire format (spec R92 to R94). -/

namespace Sys2Proof

/-- A command has no operand field, immediate, mode bit, prefix or second length (spec R90), so every term of
`Instr` is well formed. -/
def Instr.wellFormed (_ : Instr) : Bool := true

/-- A command word is one byte, one of the four codes of spec R91. -/
def wordWellFormed (w : List Byte) : Bool :=
  match w with
  | [b] => decide (1 ≤ b.toNat ∧ b.toNat ≤ 4)
  | _ => false

/-- A frame is well formed if it has room for the fixed fields, `len >= 48`, and its Header counts the bytes
after the Header, `Header = len - 4` (spec R92, R93, R94). -/
def frameWellFormed (frame : List Byte) : Bool :=
  decide (48 ≤ frame.length) && decide (Machine.be32 (frame.take 4) + 4 = frame.length)

end Sys2Proof
end

