-- ==== Sys2Proof/Certificates/Slice0/Obligations.lean ====
section
/-! DEFINITION. The statements about SHLE, each from a numbered rule of spec/ or derived from its sections. A byte that
nobody has written reads as a free value (spec 93 U1, log 2): every statement holds whatever that value is. -/

open Sys2Proof Sys2Proof.Machine

namespace Sys2Proof.Machine

/-- Every byte of a space reads as before, an unwritten one as unwritten. -/
def SpaceKept (s t : State) (sp : Space) : Prop :=
  ∀ a, Memory.read (t.mem sp) a = Memory.read (s.mem sp) a

/-- What no command writes: the capacities, CMD, CLEN, POS, NBYTES (spec R22, R25, R28) and the host's own fields. -/
def OperandsKept (s t : State) : Prop :=
  t.cfg = s.cfg ∧ t.cmd = s.cmd ∧ t.clen = s.clen ∧ t.pos = s.pos ∧ t.nbytes = s.nbytes ∧
    t.turns = s.turns ∧ t.reads = s.reads ∧ t.awaiting = s.awaiting

/-- The next turn is a reset. -/
def ResetNext (s : State) : Prop :=
  ∃ ts, s.turns = .warmReset :: ts ∨ s.turns = .powerOnReset :: ts

/-- Every register has its reset value (spec R44). -/
def RegistersReset (t : State) : Prop :=
  t.cmd = 0#8 ∧ t.status = .idle ∧ t.status.byte = 0#8 ∧ t.clen = 0#64 ∧ t.flen = 0#64 ∧ t.ctlen = 0#64 ∧
    t.pos = 0#64 ∧ t.nbytes = 0#64 ∧ t.plen = 0#32 ∧ t.req = 0#64 ∧ t.avail = 0#64

end Sys2Proof.Machine

/-! ## Encoding -/

/-- spec R91: the four codes, written bit by bit from spec/opcode_table.json, and every other byte illegal. -/
def Obligations.CommandCodes : Prop :=
  decode [0b00000001#8] = .ok (.embed, []) ∧ decode [0b00000010#8] = .ok (.extract, []) ∧
  decode [0b00000011#8] = .ok (.marshal, []) ∧ decode [0b00000100#8] = .ok (.parse, []) ∧
  ∀ b : Byte, b ≠ 0x01#8 → b ≠ 0x02#8 → b ≠ 0x03#8 → b ≠ 0x04#8 → decode [b] = .error (.illegalCode b)

/-- spec R90, R91: decoding an encoded command gives it back with the bytes after it, and no other bytes decode to it. -/
def Obligations.DecodeAndEncodeAgree : Prop :=
  (∀ (i : Instr) (rest : List Byte), i.wellFormed = true → decode (encode i ++ rest) = .ok (i, rest)) ∧
  ∀ (bytes : List Byte) (i : Instr) (rest : List Byte), decode bytes = .ok (i, rest) → bytes = encode i ++ rest

/-- spec R11: `BytesOf(BitsOf(s)) = s` and `BitsOf(BytesOf(b)) = b`, with the index formulas of R10 and R11 and no value
for a length that is not a multiple of 8. -/
def Obligations.BytesOfInvertsBitsOf : Prop :=
  (∀ s : List Byte, bytesOf (bitsOf s) = some s) ∧
  (∀ b : List Bool, b.length % 8 = 0 → ∃ s, bytesOf b = some s ∧ bitsOf s = b ∧ s.length = b.length / 8 ∧
    ∀ (j : Nat) (v : Byte), s[j]? = some v →
      v.toNat = ((List.range 8).map (fun t => (b.getD (8 * j + t) false).toNat * 2 ^ (7 - t))).sum) ∧
  (∀ b : List Bool, b.length % 8 ≠ 0 → bytesOf b = none) ∧
  ∀ (s : List Byte) (k : Nat) (v : Byte), s[k / 8]? = some v →
    (bitsOf s)[k]? = some ((v >>> (7 - k % 8)).getLsbD 0)

/-- spec R12: `u32_be` and `be32` are inverse, most-significant byte first. -/
def Obligations.HeaderBytesRoundTrip : Prop :=
  (∀ v : Nat, v < 2 ^ 32 → be32 (u32be v) = v) ∧
  (∀ s : List Byte, s.length = 4 → u32be (be32 s) = s) ∧
  (∀ a b c d : Byte,
    be32 [a, b, c, d] = a.toNat * 2 ^ 24 + b.toNat * 2 ^ 16 + c.toNat * 2 ^ 8 + d.toNat) ∧
  ∀ v : BitVec 32, u32be v.toNat =
    [v.extractLsb' 24 8, v.extractLsb' 16 8, v.extractLsb' 8 8, v.extractLsb' 0 8]

/-- spec R14: `LsbRead` byte by byte, and as `BytesOf` of the least-significant bits. -/
def Obligations.LsbReadFormula : Prop :=
  ∀ (s : State) (a n : Nat),
    (s.lsbRead a n).length = n ∧
    (∀ j < n, ∃ v, (s.lsbRead a n)[j]? = some v ∧
      v.toNat = ((List.range 8).map (fun t => (s.peek .c (a + 8 * j + t)).toNat % 2 * 2 ^ (7 - t))).sum) ∧
    bytesOf ((List.range (8 * n)).map (fun k => (s.peek .c (a + k)).getLsbD 0)) = some (s.lsbRead a n)

/-- spec R119 (ii): a read of the cover splits at any byte. -/
def Obligations.LsbReadSplits : Prop :=
  ∀ (s : State) (start a b : Nat),
    s.lsbRead start (a + b) = s.lsbRead start a ++ s.lsbRead (start + 8 * a) b

/-- spec R98: the Header written out, the bit of element `k` having weight `2^(31 - k)`. -/
def Obligations.HeaderFormula : Prop :=
  ∀ s : State,
    s.coverHeader = ((List.range 32).map (fun k => (s.peek .c k).toNat % 2 * 2 ^ (31 - k))).sum

/-! ## Issue, completion, and the turns of the agents -/

/-- spec R105: the engine's turn completes the command in flight, and is the whole effect of the decoded command on the
state with that turn taken. That a pending WAIT's step is the completion, its busy polls merged into it, and that the WAIT
stays pending is the model's choice (log 11); so is the list of turns, and that the engine moves when it is empty (log 4). -/
def Obligations.StepRunsTheCommandInFlight : Prop :=
  ∀ (s : State) (ts : List Turn) (i : Instr) (rest : List Byte),
    s.status = .busy → decode [s.cmd] = .ok (i, rest) →
      (s.turns = .engine :: ts → step s = exec i { s with turns := ts }) ∧
      (s.turns = .wait :: ts → step s = exec i s) ∧
      (s.turns = [] → step s = exec i s)

/-- The model's choice of how a command word is placed (log 5): the next step runs the decoded command on the state
just after the issue of that byte (spec R104). -/
def Obligations.IssuedWordRunsNext : Prop :=
  ∀ (s : State) (w : Nat) (i : Instr),
    decodeTableWord 8 w = some i → step (s.withFetchWord 8 w) = exec i (s.issue (BitVec.ofNat 8 w))

/-- spec R104: an issue stores the byte and sets STATUS to busy, and changes nothing else of SHLE; while busy it is refused
(spec R187). That the host may issue only while it awaits no DONE (`locked`, narrower than BUSY = 0), and that an issue
sets `awaiting`, is the model's reading of R187 (log 7). -/
def Obligations.IssueRaisesBusy : Prop :=
  ∀ (s : State) (v : Nat) (ts : List Turn), s.turns = .host (.writeReg 0 v) :: ts →
    (s.locked = false → step s = .next { s with
      cmd := BitVec.ofNat 8 v, status := .busy, awaiting := true, turns := ts }) ∧
    (s.status = .busy → step s = .refused .hostAccessWhileBusy)

/-- spec R100: a byte that is no command code is issued and completed, with ERR_ILLEGAL and nothing else of SHLE changed.
The model's own fields: the draw counter advances at the completion (log 3), the turns are taken from the list (log 4),
and the host must await no DONE before the issue and awaits it after (log 7). -/
def Obligations.IllegalByteEndsInErrIllegal : Prop :=
  ∀ (s : State) (v : Nat) (ts : List Turn), s.locked = false → v % 256 = 0 ∨ 4 < v % 256 →
    s.turns = .host (.writeReg 0 v) :: .engine :: ts →
    ∃ u, step s = .next u ∧ u.status.byte = 0x01#8 ∧
      step u = .next { s with
        cmd := BitVec.ofNat 8 v, status := .done .illegal, req := 0#64, avail := 0#64,
        awaiting := true, turns := ts, draws := s.draws + 1 } ∧
      Status.byte (.done .illegal) = 0x12#8

/-- spec R105: every path of every command, and of an illegal byte, ends in `complete(e)`, and a completion leaves CLEN,
POS and NBYTES (spec R22, R25), CMD (spec R28), the capacities and the host's own fields as they are. FLEN and CTLEN
may change: EXTRACT and MARSHAL write FLEN, PARSE writes CTLEN (spec R23, R24). -/
def Obligations.EveryCommandCompletes : Prop :=
  (∀ (i : Instr) (s : State), ∃ t e, exec i s = .next t ∧ t.status = .done e) ∧
  ∀ s : State, ∃ t e, completeInFlight s = .next t ∧ t.status = .done e ∧ OperandsKept s t

/-- spec R105, R194: a busy engine whose host keeps to R187 has completed (or been reset) before the listed turns are
used up. -/
def Obligations.BusyEngineFinishes : Prop :=
  ∀ s : State, s.status = .busy → polite .flight s.turns = true →
    ∃ n t, n ≤ s.turns.length + 1 ∧ Sys2Proof.core.run n s = .next t ∧ t.status ≠ .busy

/-- spec R187: from an issue until a read of STATUS has returned DONE = 1 every other access is refused, and no access
is refused otherwise; a read of STATUS is always answered with STATUS's byte. The flag `awaiting` that records that
interval is the model's own (log 7), and so is the 64-bit value kept in `reads` (log 8). -/
def Obligations.AccessWhileBusyIsRefused : Prop :=
  ∀ (s : State) (a : Access) (ts : List Turn), s.turns = .host a :: ts →
    (step s = .refused .hostAccessWhileBusy ↔
      a ≠ .readReg 1 ∧ (s.awaiting = true ∨ s.status = .busy)) ∧
    (a = .readReg 1 → ∃ t, step s = .next t ∧ t.reads = s.status.byte.setWidth 64 :: s.reads ∧
      (t.awaiting = true ↔ s.awaiting = true ∧ s.status.byte.getLsbD 1 = false)) ∧
    (∀ v t, a = .writeReg 0 v → step s = .next t → t.awaiting = true)

/-- spec R187: a host that keeps to the rule is never stopped, however long the run. -/
def Obligations.PoliteHostIsNeverStopped : Prop :=
  ∀ s : State, s.Inv → polite s.phase s.turns = true → NeverStops s

/-! ## The host's ports -/

/-- spec R33, writes: the low bits go to the named register and nothing else changes; read-only registers and numbers
above 9 ignore the write. -/
def Obligations.RegisterPortWrites : Prop :=
  ∀ (s : State) (n v : Nat) (ts : List Turn), s.locked = false → s.turns = .host (.writeReg n v) :: ts →
    (n = 0 → ∃ t, step s = .next t ∧ t.cmd.toNat = v % 2 ^ 8) ∧
    (n = 2 → ∃ x : Word, x.toNat = v % 2 ^ 64 ∧ step s = .next { s with turns := ts, clen := x }) ∧
    (n = 3 → ∃ x : Word, x.toNat = v % 2 ^ 64 ∧ step s = .next { s with turns := ts, flen := x }) ∧
    (n = 4 → ∃ x : Word, x.toNat = v % 2 ^ 64 ∧ step s = .next { s with turns := ts, ctlen := x }) ∧
    (n = 5 → ∃ x : Word, x.toNat = v % 2 ^ 64 ∧ step s = .next { s with turns := ts, pos := x }) ∧
    (n = 6 → ∃ x : Word, x.toNat = v % 2 ^ 64 ∧ step s = .next { s with turns := ts, nbytes := x }) ∧
    (n = 1 ∨ 7 ≤ n → step s = .next { s with turns := ts })

/-- spec R33, reads: the register zero-extended (to the model's 64-bit data path, log 8), 0 above register 9, and no
side effect on SHLE. -/
def Obligations.RegisterPortReads : Prop :=
  ∀ (s : State) (n : Nat) (ts : List Turn), s.locked = false → s.turns = .host (.readReg n) :: ts →
    ∃ x : Word, step s = .next { s with turns := ts, reads := x :: s.reads } ∧
      (n = 0 → x.toNat = s.cmd.toNat) ∧ (n = 1 → x.toNat = s.status.byte.toNat) ∧
      (n = 2 → x = s.clen) ∧ (n = 3 → x = s.flen) ∧ (n = 4 → x = s.ctlen) ∧ (n = 5 → x = s.pos) ∧
      (n = 6 → x = s.nbytes) ∧ (n = 7 → x.toNat = s.plen.toNat) ∧ (n = 8 → x = s.req) ∧ (n = 9 → x = s.avail) ∧
      (9 < n → x = 0#64)

/-- spec R70: below the capacity the buffer port reads and writes the byte, whatever the length registers say; at or above
it, or with a space number above 5, it reads 0 and writes nothing. The host must be allowed the access (spec R33, R187; `locked`, log 7). The draw that
a buffer read makes (log 3) and the zero-extension to 64 bits of the value kept (log 8) are the model's own. -/
def Obligations.BufferPortRespectsCapacities : Prop :=
  ∀ (s : State) (n k : Nat) (ts : List Turn), s.locked = false →
    (∀ (sp : Space) (v : Byte), n = sp.number → k < Config.capacity s.cfg sp →
      s.turns = .host (.writeByte n k v) :: ts →
      ∃ t, step s = .next t ∧
        t = { s with turns := ts, c := t.c, f := t.f, ct := t.ct, salt := t.salt, nonce := t.nonce, tag := t.tag } ∧
        ∀ sq a, Memory.read (t.mem sq) a = if sq = sp ∧ a = k then some v else Memory.read (s.mem sq) a) ∧
    (∀ sp : Space, n = sp.number → k < Config.capacity s.cfg sp → s.turns = .host (.readByte n k) :: ts →
      ∃ b : Byte, step s = .next { s with turns := ts, reads := b.setWidth 64 :: s.reads, draws := s.draws + 1 } ∧
        ∀ v, Memory.read (s.mem sp) k = some v → b = v) ∧
    ((∀ sp : Space, n = sp.number → Config.capacity s.cfg sp ≤ k) →
      (∀ v : Byte, s.turns = .host (.writeByte n k v) :: ts → step s = .next { s with turns := ts }) ∧
      (s.turns = .host (.readByte n k) :: ts →
        step s = .next { s with turns := ts, reads := 0#64 :: s.reads, draws := s.draws + 1 }))

/-! ## Reset -/

/-- spec R44: after reset every register is 0 and no byte of any space has been written (it reads as any value). -/
def Obligations.ResetStateValues : Prop :=
  (∀ cfg : Config, RegistersReset (State.resetWith cfg) ∧
    ∀ sp a, Memory.read ((State.resetWith cfg).mem sp) a = none) ∧
  Sys2Proof.core.reset = State.resetWith Config.vectors

/-- spec R180: reset at any time, busy or not, gives every register its reset value and leaves no command in flight. That
the host then awaits no completion is the model's choice (log 7, 10). -/
def Obligations.ResetClearsRegisters : Prop :=
  ∀ s : State, ResetNext s → ∃ t, step s = .next t ∧ RegistersReset t ∧ t.awaiting = false ∧ t.cfg = s.cfg

/-- spec R181: a warm reset of an idle engine changes no byte of any space; a power-on reset leaves every byte
unwritten. -/
def Obligations.ResetAndStorage : Prop :=
  ∀ (s : State) (ts : List Turn),
    (s.turns = .warmReset :: ts → s.status ≠ .busy →
      ∃ t, step s = .next t ∧ ∀ sp, SpaceKept s t sp) ∧
    (s.turns = .powerOnReset :: ts → ∃ t, step s = .next t ∧ ∀ sp a, Memory.read (t.mem sp) a = none)

/-- spec R182: a reset during a command leaves each byte of each space at its old value or at the value the command would
have written (`u` is the completion that does not happen), by a choice per byte that nothing constrains; a
command that would have ended in an error has written nothing. -/
def Obligations.ResetCutsACommandShort : Prop :=
  ∀ (s u : State) (ts : List Turn), s.status = .busy → s.turns = .warmReset :: ts →
    completeInFlight { s with turns := ts } = .next u →
    ∃ t, step s = .next t ∧ RegistersReset t ∧
      (∀ sp a, Memory.read (t.mem sp) a =
        if Config.newValueLanded s.draws sp.number a then Memory.read (u.mem sp) a else Memory.read (s.mem sp) a) ∧
      (u.status ≠ .done .ok → ∀ sp, SpaceKept s t sp)

/-- spec R186: the first command after any reset, from every state whose registers have their reset values, for any
capacities, whatever the spaces hold: unwritten bytes after a power-on reset (log 2), kept ones after a warm reset.
EMBED and EXTRACT succeed and move nothing, PARSE ends with ERR_CAPACITY, MARSHAL builds a 48-byte frame with
Header 44 from the field registers as they are when FRAME_CAP is at least 48. -/
def Obligations.FirstCommandFromReset : Prop :=
  ∀ s : State, RegistersReset s →
    (∃ t, exec .embed s = .next t ∧ t.status = .done .ok ∧ ∀ sp, SpaceKept s t sp) ∧
    (∃ t, exec .extract s = .next t ∧ t.status = .done .ok ∧ ∀ sp, SpaceKept s t sp) ∧
    (∃ t, exec .parse s = .next t ∧ t.status = .done .capacity ∧ t.req = 32#64 ∧ t.avail = 0#64) ∧
    (48 ≤ s.cfg.frameCap.val → ∃ t, exec .marshal s = .next t ∧ t.status = .done .ok ∧
      t.flen = 48#64 ∧ be32 (t.memRead .f 0 4) = 44 ∧
      (∀ j < 16, Memory.read t.f (4 + j) = some (s.peek .salt j)) ∧
      (∀ j < 12, Memory.read t.f (20 + j) = some (s.peek .nonce j)) ∧
      (∀ j < 16, Memory.read t.f (32 + j) = some (s.peek .tag j)))

/-! ## EMBED -/

/-- spec R111: the three outcomes of EMBED, in the order of its lines, and the bit each element takes. -/
def Obligations.EmbedFollowsItsRule : Prop :=
  ∀ s : State,
    (s.cfg.coverCap.val < s.clen.toNat ∨ s.cfg.frameCap.val < s.flen.toNat →
      ∃ t, exec .embed s = .next t ∧ t.status = .done .resource ∧ t.req = 0#64 ∧ t.avail = 0#64 ∧
        SpaceKept s t .c) ∧
    (s.clen.toNat ≤ s.cfg.coverCap.val → s.flen.toNat ≤ s.cfg.frameCap.val → s.clen.toNat < 8 * s.flen.toNat →
      ∃ t, exec .embed s = .next t ∧ t.status = .done .capacity ∧ t.req.toNat = 8 * s.flen.toNat ∧
        t.avail = s.clen ∧ SpaceKept s t .c) ∧
    (s.clen.toNat ≤ s.cfg.coverCap.val → s.flen.toNat ≤ s.cfg.frameCap.val → 8 * s.flen.toNat ≤ s.clen.toNat →
      ∃ t, exec .embed s = .next t ∧ t.status = .done .ok ∧ t.req.toNat = 8 * s.flen.toNat ∧ t.avail = s.clen ∧
        (∀ i < 8 * s.flen.toNat, Memory.read t.c i =
          some ((s.peek .c i &&& 0xFE#8) ||| ((s.peek .f (i / 8) >>> (7 - i % 8)) &&& 1#8))) ∧
        ∀ i, 8 * s.flen.toNat ≤ i → Memory.read t.c i = Memory.read s.c i)

/-- spec R113: what EMBED leaves unchanged, on every completion, on an error and on success. -/
def Obligations.EmbedFrame : Prop :=
  ∀ s t : State, exec .embed s = .next t →
    OperandsKept s t ∧ t.flen = s.flen ∧ t.ctlen = s.ctlen ∧ t.plen = s.plen ∧
    (∀ sp, sp ≠ .c → SpaceKept s t sp) ∧
    (∀ e, e ≠ .ok → t.status = .done e → SpaceKept s t .c) ∧
    (t.status = .done .ok →
      (∀ i < 8 * s.flen.toNat, ∃ v, Memory.read t.c i = some v ∧
        ∀ k, 1 ≤ k → v.getLsbD k = (s.peek .c i).getLsbD k) ∧
      ∀ i, 8 * s.flen.toNat ≤ i → Memory.read t.c i = Memory.read s.c i)

/-- spec R114: non-embedded bits stay, the capacity boundary is exact, and no element moves by more than one. -/
def Obligations.EmbedLaws : Prop :=
  ∀ s : State, s.clen.toNat ≤ s.cfg.coverCap.val → s.flen.toNat ≤ s.cfg.frameCap.val →
    ∃ t, exec .embed s = .next t ∧
      (t.status = .done .capacity ↔ s.clen.toNat < 8 * s.flen.toNat) ∧
      (s.clen.toNat < 8 * s.flen.toNat → SpaceKept s t .c) ∧
      (8 * s.flen.toNat ≤ s.clen.toNat → t.status = .done .ok ∧
        (∀ i < 8 * s.flen.toNat, ∃ v, Memory.read t.c i = some v ∧
          (∀ k, 1 ≤ k → v.getLsbD k = (s.peek .c i).getLsbD k) ∧
          v.toNat ≤ (s.peek .c i).toNat + 1 ∧ (s.peek .c i).toNat ≤ v.toNat + 1) ∧
        ∀ i, 8 * s.flen.toNat ≤ i → Memory.read t.c i = Memory.read s.c i)

/-- spec R115: what EMBED wrote reads back, from the start and from any byte on; EXTRACT returns the bytes F holds, and a
second EMBED changes nothing (for a frame that has been written, since an unwritten byte is drawn anew, log 2). -/
def Obligations.EmbedReadsBack : Prop :=
  ∀ s t : State, exec .embed s = .next t → t.status = .done .ok →
    t.lsbRead 0 s.flen.toNat = s.memRead .f 0 s.flen.toNat ∧
    (∀ a ≤ s.flen.toNat, t.lsbRead (8 * a) (s.flen.toNat - a) = s.memRead .f a (s.flen.toNat - a)) ∧
    (∃ u, exec .extract { t with pos := 0#64, nbytes := s.flen } = .next u ∧ u.status = .done .ok ∧ u.flen = s.flen ∧
      ∀ j < s.flen.toNat, Memory.read u.f j = some (s.peek .f j)) ∧
    ((∀ j < s.flen.toNat, (Memory.read s.f j).isSome) →
      ∃ u, exec .embed t = .next u ∧ u.status = .done .ok ∧ ∀ sp, SpaceKept t u sp)

/-! ## EXTRACT -/

/-- spec R116: the three outcomes of EXTRACT, in the order of its lines, and the byte each group of eight elements gives. -/
def Obligations.ExtractFollowsItsRule : Prop :=
  ∀ s : State,
    (s.cfg.coverCap.val < s.clen.toNat ∨ s.cfg.frameCap.val < s.nbytes.toNat →
      ∃ t, exec .extract s = .next t ∧ t.status = .done .resource ∧ t.req = 0#64 ∧ t.avail = 0#64 ∧
        t.flen = s.flen ∧ SpaceKept s t .f) ∧
    (s.clen.toNat ≤ s.cfg.coverCap.val → s.nbytes.toNat ≤ s.cfg.frameCap.val →
      s.clen.toNat < s.pos.toNat + 8 * s.nbytes.toNat →
      ∃ t, exec .extract s = .next t ∧ t.status = .done .capacity ∧
        t.req.toNat = min (s.pos.toNat + 8 * s.nbytes.toNat) (2 ^ 64 - 1) ∧ t.avail = s.clen ∧
        t.flen = s.flen ∧ SpaceKept s t .f) ∧
    (s.clen.toNat ≤ s.cfg.coverCap.val → s.nbytes.toNat ≤ s.cfg.frameCap.val →
      s.pos.toNat + 8 * s.nbytes.toNat ≤ s.clen.toNat →
      ∃ t, exec .extract s = .next t ∧ t.status = .done .ok ∧ t.req.toNat = s.pos.toNat + 8 * s.nbytes.toNat ∧
        t.avail = s.clen ∧ t.flen = s.nbytes ∧
        (∀ j < s.nbytes.toNat, ∃ v, Memory.read t.f j = some v ∧ v.toNat =
          ((List.range 8).map (fun k => (s.peek .c (s.pos.toNat + 8 * j + k)).toNat % 2 * 2 ^ (7 - k))).sum) ∧
        ∀ j, s.nbytes.toNat ≤ j → Memory.read t.f j = Memory.read s.f j) ∧
    ∀ t, exec .extract s = .next t → SpaceKept s t .c

/-- spec R118: what EXTRACT leaves unchanged, on every completion, on an error and on success. -/
def Obligations.ExtractFrame : Prop :=
  ∀ s t : State, exec .extract s = .next t →
    OperandsKept s t ∧ t.ctlen = s.ctlen ∧ t.plen = s.plen ∧
    (∀ sp, sp ≠ .f → SpaceKept s t sp) ∧
    (∀ e, e ≠ .ok → t.status = .done e → t.flen = s.flen ∧ SpaceKept s t .f) ∧
    (t.status = .done .ok → ∀ j, s.nbytes.toNat ≤ j → Memory.read t.f j = Memory.read s.f j)

/-- spec R119 (iii): EXTRACT learns nothing of the cover but bit 0 of the elements it reads. -/
def Obligations.ExtractSeesOnlyCoverBits : Prop :=
  ∀ s r : State, r.cfg = s.cfg → r.clen = s.clen → r.pos = s.pos → r.nbytes = s.nbytes →
    (∀ k < 8 * s.nbytes.toNat, r.lsb (s.pos.toNat + k) = s.lsb (s.pos.toNat + k)) →
    ∃ t u, exec .extract s = .next t ∧ exec .extract r = .next u ∧
      u.status = t.status ∧ u.req = t.req ∧ u.avail = t.avail ∧
      (t.status = .done .ok → u.flen = t.flen ∧ ∀ j < s.nbytes.toNat, Memory.read u.f j = Memory.read t.f j)

/-! ## MARSHAL -/

/-- spec R131: the two outcomes of MARSHAL and every byte of the frame. -/
def Obligations.MarshalFollowsItsRule : Prop :=
  ∀ s : State,
    (s.cfg.ctCap.val < s.ctlen.toNat ∨ s.cfg.frameCap.val < 48 + s.ctlen.toNat →
      ∃ t, exec .marshal s = .next t ∧ t.status = .done .resource ∧ t.req = 0#64 ∧ t.avail = 0#64 ∧
        t.flen = s.flen ∧ SpaceKept s t .f) ∧
    (s.ctlen.toNat ≤ s.cfg.ctCap.val → 48 + s.ctlen.toNat ≤ s.cfg.frameCap.val →
      ∃ t, exec .marshal s = .next t ∧ t.status = .done .ok ∧ t.req = 0#64 ∧ t.avail = 0#64 ∧
        t.flen.toNat = 48 + s.ctlen.toNat ∧
        (∀ j < 4, Memory.read t.f j = some (BitVec.ofNat 8 ((44 + s.ctlen.toNat) / 2 ^ (8 * (3 - j))))) ∧
        (∀ j < 16, Memory.read t.f (4 + j) = some (s.peek .salt j)) ∧
        (∀ j < 12, Memory.read t.f (20 + j) = some (s.peek .nonce j)) ∧
        (∀ j < 16, Memory.read t.f (32 + j) = some (s.peek .tag j)) ∧
        (∀ j < s.ctlen.toNat, Memory.read t.f (48 + j) = some (s.peek .ct j)) ∧
        ∀ a, 48 + s.ctlen.toNat ≤ a → Memory.read t.f a = Memory.read s.f a)

/-- spec R133: what MARSHAL leaves unchanged (with the bytes of F beyond the frame, R131 (e)). -/
def Obligations.MarshalFrame : Prop :=
  ∀ s t : State, exec .marshal s = .next t →
    OperandsKept s t ∧ t.ctlen = s.ctlen ∧ t.plen = s.plen ∧
    (∀ sp, sp ≠ .f → SpaceKept s t sp) ∧
    (t.status = .done .resource → t.flen = s.flen ∧ SpaceKept s t .f) ∧
    ∀ a, 48 + s.ctlen.toNat ≤ a → Memory.read t.f a = Memory.read s.f a

/-- spec R134: the laws of a marshalled frame, which is well formed (spec R92, R93). -/
def Obligations.MarshalledFrameIsWellFormed : Prop :=
  ∀ s t : State, exec .marshal s = .next t → t.status = .done .ok →
    be32 (t.memRead .f 0 4) + 4 = t.flen.toNat ∧ be32 (t.memRead .f 0 4) = 44 + s.ctlen.toNat ∧
    t.memRead .f 4 16 = s.memRead .salt 0 16 ∧ t.memRead .f 20 12 = s.memRead .nonce 0 12 ∧
    t.memRead .f 32 16 = s.memRead .tag 0 16 ∧ t.memRead .f 48 s.ctlen.toNat = s.memRead .ct 0 s.ctlen.toNat ∧
    48 ≤ t.flen.toNat ∧ 8 * t.flen.toNat = 384 + 8 * s.ctlen.toNat ∧
    frameWellFormed (t.memRead .f 0 t.flen.toNat) = true

/-- spec R141: an EMBED of the marshalled frame succeeds exactly when the cover has `8 * (48 + L)` elements, and otherwise
leaves the cover unchanged. -/
def Obligations.EncodeCapacityLaw : Prop :=
  ∀ s t u : State, exec .marshal s = .next t → t.status = .done .ok →
    u.cfg = s.cfg → u.flen = t.flen → u.clen.toNat ≤ s.cfg.coverCap.val →
    SpaceKept s t .c ∧
    ∃ v, exec .embed u = .next v ∧
      (8 * (4 + 16 + 12 + 16 + s.ctlen.toNat) ≤ u.clen.toNat → v.status = .done .ok) ∧
      (u.clen.toNat < 8 * (4 + 16 + 12 + 16 + s.ctlen.toNat) → v.status = .done .capacity ∧ SpaceKept u v .c)

/-! ## PARSE -/

/-- spec R136: the six outcomes of PARSE, in the order of its lines; the header value is `be32(LsbRead(0, 4))`
(`HeaderFormula` writes it out). -/
def Obligations.ParseFollowsItsRule : Prop :=
  ∀ s : State,
    (s.cfg.coverCap.val < s.clen.toNat →
      ∃ t, exec .parse s = .next t ∧ t.status = .done .resource ∧ t.req = 0#64 ∧ t.avail = 0#64 ∧ t.plen = s.plen) ∧
    (s.clen.toNat ≤ s.cfg.coverCap.val → s.clen.toNat < 32 →
      ∃ t, exec .parse s = .next t ∧ t.status = .done .capacity ∧ t.req = 32#64 ∧ t.avail = s.clen ∧
        t.plen = s.plen) ∧
    (s.clen.toNat ≤ s.cfg.coverCap.val → 32 ≤ s.clen.toNat →
      ∃ t, exec .parse s = .next t ∧ t.plen.toNat = s.coverHeader ∧
        t.req.toNat = 8 * (s.coverHeader + 4) ∧ t.avail = s.clen ∧
        (s.clen.toNat < 8 * (s.coverHeader + 4) → t.status = .done .capacity) ∧
        (8 * (s.coverHeader + 4) ≤ s.clen.toNat → s.coverHeader < 44 → t.status = .done .format) ∧
        (8 * (s.coverHeader + 4) ≤ s.clen.toNat → 44 ≤ s.coverHeader →
          s.cfg.ctCap.val < s.coverHeader - 44 → t.status = .done .resource) ∧
        (8 * (s.coverHeader + 4) ≤ s.clen.toNat → 44 ≤ s.coverHeader →
          s.coverHeader - 44 ≤ s.cfg.ctCap.val →
          t.status = .done .ok ∧ t.ctlen.toNat = s.coverHeader - 44 ∧
          (∀ j < 16, Memory.read t.salt j = some (s.lsbByte (32 + 8 * j))) ∧
          (∀ j < 12, Memory.read t.nonce j = some (s.lsbByte (160 + 8 * j))) ∧
          (∀ j < 16, Memory.read t.tag j = some (s.lsbByte (256 + 8 * j))) ∧
          (∀ j < s.coverHeader - 44, Memory.read t.ct j = some (s.lsbByte (384 + 8 * j))) ∧
          ∀ j, s.coverHeader - 44 ≤ j → Memory.read t.ct j = Memory.read s.ct j)) ∧
    ∀ t, exec .parse s = .next t →
      SpaceKept s t .c ∧ SpaceKept s t .f ∧ t.flen = s.flen ∧ t.pos = s.pos ∧ t.nbytes = s.nbytes ∧
      ∀ e, e ≠ .ok → t.status = .done e → t.ctlen = s.ctlen ∧ ∀ sp, SpaceKept s t sp

/-- spec R138: what PARSE leaves unchanged, on every completion, on an error, on an error before the header read, and on
success. -/
def Obligations.ParseFrame : Prop :=
  ∀ s t : State, exec .parse s = .next t →
    OperandsKept s t ∧ t.flen = s.flen ∧ SpaceKept s t .c ∧ SpaceKept s t .f ∧
    (∀ e, e ≠ .ok → t.status = .done e →
      t.ctlen = s.ctlen ∧ SpaceKept s t .salt ∧ SpaceKept s t .nonce ∧ SpaceKept s t .tag ∧ SpaceKept s t .ct) ∧
    (s.cfg.coverCap.val < s.clen.toNat ∨ s.clen.toNat < 32 → t.plen = s.plen) ∧
    (t.status = .done .ok →
      (∀ a, t.plen.toNat - 44 ≤ a → Memory.read t.ct a = Memory.read s.ct a) ∧
      (∀ a, 16 ≤ a → Memory.read t.salt a = Memory.read s.salt a) ∧
      (∀ a, 12 ≤ a → Memory.read t.nonce a = Memory.read s.nonce a) ∧
      (∀ a, 16 ≤ a → Memory.read t.tag a = Memory.read s.tag a))

/-- spec R66, R136 (h): PARSE learns nothing of the cover but bit 0 of its elements. -/
def Obligations.ParseSeesOnlyCoverBits : Prop :=
  ∀ s r : State, r.cfg = s.cfg → r.clen = s.clen → (∀ k < s.clen.toNat, r.lsb k = s.lsb k) →
    ∃ t u, exec .parse s = .next t ∧ exec .parse r = .next u ∧
      u.status = t.status ∧ u.req = t.req ∧ u.avail = t.avail ∧
      (32 ≤ s.clen.toNat → s.clen.toNat ≤ s.cfg.coverCap.val → u.plen = t.plen) ∧
      (t.status = .done .ok → u.ctlen = t.ctlen ∧
        (∀ j < 16, Memory.read u.salt j = Memory.read t.salt j) ∧
        (∀ j < 12, Memory.read u.nonce j = Memory.read t.nonce j) ∧
        (∀ j < 16, Memory.read u.tag j = Memory.read t.tag j) ∧
        ∀ j < t.ctlen.toNat, Memory.read u.ct j = Memory.read t.ct j)

/-- spec R142, R119: the header and the body read by two EXTRACTs are what PARSE returns. -/
def Obligations.TwoExtractsGiveTheParsedFields : Prop :=
  ∀ s t : State, exec .parse s = .next t → t.status = .done .ok → t.plen.toNat ≤ s.cfg.frameCap.val →
    ∃ u v, exec .extract { s with pos := 0#64, nbytes := 4#64 } = .next u ∧ u.status = .done .ok ∧
      be32 (u.memRead .f 0 4) = t.plen.toNat ∧
      exec .extract { s with pos := 32#64, nbytes := t.plen.setWidth 64 } = .next v ∧ v.status = .done .ok ∧
      v.flen.toNat = t.plen.toNat ∧
      (∀ j < 16, Memory.read v.f j = Memory.read t.salt j) ∧
      (∀ j < 12, Memory.read v.f (16 + j) = Memory.read t.nonce j) ∧
      (∀ j < 16, Memory.read v.f (28 + j) = Memory.read t.tag j) ∧
      ∀ j < t.ctlen.toNat, Memory.read v.f (44 + j) = Memory.read t.ct j

/-- spec R139: MARSHAL, EMBED, PARSE give the fields back, whatever the host did to the field registers in between, and
whatever bits 7:1 of the cover and its elements beyond the frame hold. -/
def Obligations.RoundTripThroughTheCover : Prop :=
  ∀ s m e x p : State,
    exec .marshal s = .next m → m.status = .done .ok →
    e.cfg = s.cfg → e.flen = m.flen → (∀ a < m.flen.toNat, Memory.read e.f a = Memory.read m.f a) →
    exec .embed e = .next x → x.status = .done .ok →
    p.cfg = s.cfg → 384 + 8 * s.ctlen.toNat ≤ p.clen.toNat → p.clen.toNat ≤ s.cfg.coverCap.val →
    (∀ k < 384 + 8 * s.ctlen.toNat, ∃ v w, Memory.read x.c k = some v ∧ Memory.read p.c k = some w ∧
      w.getLsbD 0 = v.getLsbD 0) →
    ∃ t, exec .parse p = .next t ∧ t.status = .done .ok ∧ t.plen.toNat = 44 + s.ctlen.toNat ∧ t.ctlen = s.ctlen ∧
      (∀ j < 16, Memory.read t.salt j = some (s.peek .salt j)) ∧
      (∀ j < 12, Memory.read t.nonce j = some (s.peek .nonce j)) ∧
      (∀ j < 16, Memory.read t.tag j = some (s.peek .tag j)) ∧
      ∀ j < s.ctlen.toNat, Memory.read t.ct j = some (s.peek .ct j)

/-- spec R140, for any cover that PARSE accepts: flipping bit 0 of element `k` flips exactly one bit of one field, or
changes the Header by `2^(31 - k)`, or lies beyond the frame and changes nothing. -/
def Obligations.FlippedBitReachesOneField : Prop :=
  ∀ (s r t : State) (k : Nat), exec .parse s = .next t → t.status = .done .ok →
    r.cfg = s.cfg → r.clen = s.clen → k < s.clen.toNat →
    (∀ j < s.clen.toNat, r.lsb j = (s.lsb j ^^ decide (j = k))) →
    (32 ≤ k → ∃ u, exec .parse r = .next u ∧ u.status = .done .ok ∧ u.plen = t.plen ∧ u.req = t.req ∧
      u.ctlen = t.ctlen ∧
      (∀ j < 16, Memory.read u.salt j = (Memory.read t.salt j).map (fun v =>
        if (k - 32) / 8 = j then v ^^^ (1#8 <<< (7 - k % 8)) else v)) ∧
      (∀ j < 12, Memory.read u.nonce j = (Memory.read t.nonce j).map (fun v =>
        if 160 ≤ k ∧ (k - 160) / 8 = j then v ^^^ (1#8 <<< (7 - k % 8)) else v)) ∧
      (∀ j < 16, Memory.read u.tag j = (Memory.read t.tag j).map (fun v =>
        if 256 ≤ k ∧ (k - 256) / 8 = j then v ^^^ (1#8 <<< (7 - k % 8)) else v)) ∧
      ∀ j < t.ctlen.toNat, Memory.read u.ct j = (Memory.read t.ct j).map (fun v =>
        if 384 ≤ k ∧ (k - 384) / 8 = j then v ^^^ (1#8 <<< (7 - k % 8)) else v)) ∧
    (k < 32 → ∃ u, exec .parse r = .next u ∧
      u.plen.toNat + (if s.lsb k then 2 ^ (31 - k) else 0) = t.plen.toNat + (if s.lsb k then 0 else 2 ^ (31 - k)) ∧
      u.req.toNat = 8 * (u.plen.toNat + 4) ∧
      (u.status = .done .ok →
        (∀ j < 16, Memory.read u.salt j = Memory.read t.salt j) ∧
        (∀ j < 12, Memory.read u.nonce j = Memory.read t.nonce j) ∧
        (∀ j < 16, Memory.read u.tag j = Memory.read t.tag j) ∧
        ∀ j < min u.ctlen.toNat t.ctlen.toNat, Memory.read u.ct j = Memory.read t.ct j))

/-! ## Errors and flags -/

/-- spec R29: BUSY is bit 0, DONE bit 1, ERR bits 4:2, bits 7:5 read 0, BUSY and DONE are never both 1, ERR is 0 unless
DONE, and the byte takes only seven values. -/
def Obligations.StatusByteTakesSevenValues : Prop :=
  (∀ t : Status,
    t.byte.getLsbD 0 = t.busyBit ∧ t.byte.getLsbD 1 = t.doneBit ∧ (t.byte.extractLsb' 2 3).toNat = t.errField ∧
    t.byte.extractLsb' 5 3 = 0#3 ∧ ¬ (t.byte.getLsbD 0 = true ∧ t.byte.getLsbD 1 = true) ∧
    (t.byte.getLsbD 1 = false → t.byte.extractLsb' 2 3 = 0#3) ∧
    t.byte ∈ [0x00#8, 0x01#8, 0x02#8, 0x06#8, 0x0A#8, 0x0E#8, 0x12#8]) ∧
  Status.byte .idle = 0x00#8 ∧ Status.byte .busy = 0x01#8 ∧ Status.byte (.done .ok) = 0x02#8 ∧
  Status.byte (.done .capacity) = 0x06#8 ∧ Status.byte (.done .format) = 0x0A#8 ∧
  Status.byte (.done .resource) = 0x0E#8 ∧ Status.byte (.done .illegal) = 0x12#8

/-- spec R27: STATUS changes at an issue, at a completion and at reset, and at no other event. -/
def Obligations.StatusIsWrittenOnlyAtIssueCompletionReset : Prop :=
  ∀ s t : State, step s = .next t → t.status ≠ s.status →
    (∃ v ts, s.turns = .host (.writeReg 0 v) :: ts ∧ t.status = .busy) ∨
    (s.status = .busy ∧ ∃ e, t.status = .done e) ∨
    (ResetNext s ∧ t.status = .idle)

/-- spec R161: the state after an error completion is the state at issue but for STATUS, REQ, AVAIL and, in PARSE, PLEN
(and the model's draw counter, log 3). -/
def Obligations.ErrorsArePrecise : Prop :=
  (∀ (i : Instr) (s t : State) (e : ErrCode), exec i s = .next t → t.status = .done e → e ≠ .ok →
    t = { s with status := .done e, req := t.req, avail := t.avail, plen := t.plen, draws := t.draws } ∧
    (i ≠ .parse → t.plen = s.plen)) ∧
  ∀ (s t : State), completeInFlight s = .next t → t.status = .done .illegal →
    t = { s with status := .done .illegal, req := 0#64, avail := 0#64, draws := t.draws }

/-- spec R151: the four places of ERR_CAPACITY, and no other, each with its required count; AVAIL is CLEN and REQ exceeds
it. -/
def Obligations.CapacityErrorPlaces : Prop :=
  ∀ (i : Instr) (s t : State), exec i s = .next t →
    (t.status = .done .capacity ↔
      (i = .embed ∧ s.clen.toNat ≤ s.cfg.coverCap.val ∧ s.flen.toNat ≤ s.cfg.frameCap.val ∧
        s.clen.toNat < 8 * s.flen.toNat ∧ t.req.toNat = 8 * s.flen.toNat) ∨
      (i = .extract ∧ s.clen.toNat ≤ s.cfg.coverCap.val ∧ s.nbytes.toNat ≤ s.cfg.frameCap.val ∧
        s.clen.toNat < s.pos.toNat + 8 * s.nbytes.toNat ∧
        t.req.toNat = min (s.pos.toNat + 8 * s.nbytes.toNat) (2 ^ 64 - 1)) ∨
      (i = .parse ∧ s.clen.toNat ≤ s.cfg.coverCap.val ∧ s.clen.toNat < 32 ∧ t.req.toNat = 32) ∨
      (i = .parse ∧ s.clen.toNat ≤ s.cfg.coverCap.val ∧ 32 ≤ s.clen.toNat ∧
        s.clen.toNat < 8 * (t.plen.toNat + 4) ∧ t.req.toNat = 8 * (t.plen.toNat + 4))) ∧
    (t.status = .done .capacity → t.avail = s.clen ∧ t.avail.toNat < t.req.toNat)

/-- spec R152: the one place of ERR_FORMAT. -/
def Obligations.FormatErrorPlace : Prop :=
  ∀ (i : Instr) (s t : State), exec i s = .next t →
    (t.status = .done .format ↔
      i = .parse ∧ s.clen.toNat ≤ s.cfg.coverCap.val ∧ 32 ≤ s.clen.toNat ∧
        8 * (t.plen.toNat + 4) ≤ s.clen.toNat ∧ t.plen.toNat < 44)

/-- spec R153: the places of ERR_RESOURCE. -/
def Obligations.ResourceErrorPlaces : Prop :=
  ∀ (i : Instr) (s t : State), exec i s = .next t →
    (t.status = .done .resource ↔
      (i ≠ .marshal ∧ s.cfg.coverCap.val < s.clen.toNat) ∨
      (i = .embed ∧ s.cfg.frameCap.val < s.flen.toNat) ∨
      (i = .extract ∧ s.cfg.frameCap.val < s.nbytes.toNat) ∨
      (i = .marshal ∧ (s.cfg.ctCap.val < s.ctlen.toNat ∨ s.cfg.frameCap.val < 48 + s.ctlen.toNat)) ∨
      (i = .parse ∧ 32 ≤ s.clen.toNat ∧ 8 * (s.coverHeader + 4) ≤ s.clen.toNat ∧
        s.cfg.ctCap.val < s.coverHeader - 44))

/-! ## The whole machine -/

/-- The invariant holds after reset, for any capacities (spec R44). -/
def Obligations.ResetMeetsTheInvariant : Prop :=
  ∀ cfg : Config, (State.resetWith cfg).Inv

/-- Every step of every agent keeps the invariant: canonical spaces within their capacities, AVAIL at most COVER_CAP, and
STATUS, CMD, REQ, AVAIL and PLEN that agree (spec R29, R60, R150 to R154, R187). -/
def Obligations.EveryStepKeepsTheInvariant : Prop :=
  ∀ s t : State, s.Inv → step s = .next t → t.Inv

/-- spec R6: no step changes the capacities. -/
def Obligations.CapacitiesNeverChange : Prop :=
  ∀ s t : State, step s = .next t → t.cfg = s.cfg

/-- spec R22, R25: CLEN, POS and NBYTES are written by the host and by reset only. -/
def Obligations.OperandRegistersBelongToTheHost : Prop :=
  ∀ s t : State, step s = .next t →
    (t.clen ≠ s.clen → (∃ v ts, s.turns = .host (.writeReg 2 v) :: ts) ∨ ResetNext s) ∧
    (t.pos ≠ s.pos → (∃ v ts, s.turns = .host (.writeReg 5 v) :: ts) ∨ ResetNext s) ∧
    (t.nbytes ≠ s.nbytes → (∃ v ts, s.turns = .host (.writeReg 6 v) :: ts) ∨ ResetNext s)

/-- spec R32: PLEN is written by the completion of a PARSE that has read the header, and by reset. -/
def Obligations.PlenIsWrittenOnlyByParse : Prop :=
  ∀ s t : State, step s = .next t → t.plen ≠ s.plen →
    (s.status = .busy ∧ decode [s.cmd] = .ok (.parse, []) ∧ 32 ≤ s.clen.toNat ∧ t.plen.toNat = s.coverHeader) ∨
    (ResetNext s ∧ t.plen = 0#32)

/-- spec R39: the cover is written by EMBED, below CLEN, by the host, and by no other event but reset. -/
def Obligations.CoverIsWrittenOnlyByEmbedAndHost : Prop :=
  ∀ (s t : State) (a : Nat), step s = .next t → Memory.read t.c a ≠ Memory.read s.c a →
    (s.status = .busy ∧ decode [s.cmd] = .ok (.embed, []) ∧ a < 8 * s.flen.toNat ∧ a < s.clen.toNat) ∨
    (∃ v ts, s.turns = .host (.writeByte 0 a v) :: ts) ∨ ResetNext s

/-- spec R39: elements at index CLEN and above are neither read nor written by any command: two runs that differ only
there end alike, and each keeps its own. -/
def Obligations.CommandsIgnoreTheCoverBeyondClen : Prop :=
  ∀ (i : Instr) (s : State) (m : Memory), (∀ k < s.clen.toNat, Memory.read m k = Memory.read s.c k) →
    ∃ t u, exec i s = .next t ∧ exec i { s with c := m } = .next u ∧ u = { t with c := u.c } ∧
      (∀ k < s.clen.toNat, Memory.read u.c k = Memory.read t.c k) ∧
      (∀ k, s.clen.toNat ≤ k → Memory.read t.c k = Memory.read s.c k) ∧
      (∀ k, s.clen.toNat ≤ k → Memory.read u.c k = Memory.read m k)
end

