-- ==== Sys2Proof/Laws/State.lean ====
section
/-! SUPPORT. One lemma per field per update of the state, so that no proof unfolds a record update. -/

namespace Sys2Proof.Machine

variable (s : State) (sp sq : Space) (m : Memory) (a n : Nat) (e : ErrCode) (v : Byte) (w : Word)

@[simp] theorem State.mem_c : s.mem .c = s.c := rfl
@[simp] theorem State.mem_f : s.mem .f = s.f := rfl
@[simp] theorem State.mem_ct : s.mem .ct = s.ct := rfl
@[simp] theorem State.mem_salt : s.mem .salt = s.salt := rfl
@[simp] theorem State.mem_nonce : s.mem .nonce = s.nonce := rfl
@[simp] theorem State.mem_tag : s.mem .tag = s.tag := rfl

@[simp] theorem State.setMem_cfg : (s.setMem sp m).cfg = s.cfg := by cases sp <;> rfl
@[simp] theorem State.setMem_cmd : (s.setMem sp m).cmd = s.cmd := by cases sp <;> rfl
@[simp] theorem State.setMem_status : (s.setMem sp m).status = s.status := by cases sp <;> rfl
@[simp] theorem State.setMem_clen : (s.setMem sp m).clen = s.clen := by cases sp <;> rfl
@[simp] theorem State.setMem_flen : (s.setMem sp m).flen = s.flen := by cases sp <;> rfl
@[simp] theorem State.setMem_ctlen : (s.setMem sp m).ctlen = s.ctlen := by cases sp <;> rfl
@[simp] theorem State.setMem_pos : (s.setMem sp m).pos = s.pos := by cases sp <;> rfl
@[simp] theorem State.setMem_nbytes : (s.setMem sp m).nbytes = s.nbytes := by cases sp <;> rfl
@[simp] theorem State.setMem_plen : (s.setMem sp m).plen = s.plen := by cases sp <;> rfl
@[simp] theorem State.setMem_req : (s.setMem sp m).req = s.req := by cases sp <;> rfl
@[simp] theorem State.setMem_avail : (s.setMem sp m).avail = s.avail := by cases sp <;> rfl
@[simp] theorem State.setMem_turns : (s.setMem sp m).turns = s.turns := by cases sp <;> rfl
@[simp] theorem State.setMem_reads : (s.setMem sp m).reads = s.reads := by cases sp <;> rfl
@[simp] theorem State.setMem_awaiting : (s.setMem sp m).awaiting = s.awaiting := by cases sp <;> rfl
@[simp] theorem State.setMem_draws : (s.setMem sp m).draws = s.draws := by cases sp <;> rfl
@[simp] theorem State.mem_setMem :
    (s.setMem sp m).mem sq = if sq = sp then m else s.mem sq := by cases sp <;> cases sq <;> rfl
@[simp] theorem State.setMem_c_c : (s.setMem .c m).c = m := rfl
@[simp] theorem State.setMem_c_f : (s.setMem .c m).f = s.f := rfl
@[simp] theorem State.setMem_c_ct : (s.setMem .c m).ct = s.ct := rfl
@[simp] theorem State.setMem_c_salt : (s.setMem .c m).salt = s.salt := rfl
@[simp] theorem State.setMem_c_nonce : (s.setMem .c m).nonce = s.nonce := rfl
@[simp] theorem State.setMem_c_tag : (s.setMem .c m).tag = s.tag := rfl
@[simp] theorem State.setMem_f_c : (s.setMem .f m).c = s.c := rfl
@[simp] theorem State.setMem_f_f : (s.setMem .f m).f = m := rfl
@[simp] theorem State.setMem_f_ct : (s.setMem .f m).ct = s.ct := rfl
@[simp] theorem State.setMem_f_salt : (s.setMem .f m).salt = s.salt := rfl
@[simp] theorem State.setMem_f_nonce : (s.setMem .f m).nonce = s.nonce := rfl
@[simp] theorem State.setMem_f_tag : (s.setMem .f m).tag = s.tag := rfl
@[simp] theorem State.setMem_ct_c : (s.setMem .ct m).c = s.c := rfl
@[simp] theorem State.setMem_ct_f : (s.setMem .ct m).f = s.f := rfl
@[simp] theorem State.setMem_ct_ct : (s.setMem .ct m).ct = m := rfl
@[simp] theorem State.setMem_ct_salt : (s.setMem .ct m).salt = s.salt := rfl
@[simp] theorem State.setMem_ct_nonce : (s.setMem .ct m).nonce = s.nonce := rfl
@[simp] theorem State.setMem_ct_tag : (s.setMem .ct m).tag = s.tag := rfl
@[simp] theorem State.setMem_salt_c : (s.setMem .salt m).c = s.c := rfl
@[simp] theorem State.setMem_salt_f : (s.setMem .salt m).f = s.f := rfl
@[simp] theorem State.setMem_salt_ct : (s.setMem .salt m).ct = s.ct := rfl
@[simp] theorem State.setMem_salt_salt : (s.setMem .salt m).salt = m := rfl
@[simp] theorem State.setMem_salt_nonce : (s.setMem .salt m).nonce = s.nonce := rfl
@[simp] theorem State.setMem_salt_tag : (s.setMem .salt m).tag = s.tag := rfl
@[simp] theorem State.setMem_nonce_c : (s.setMem .nonce m).c = s.c := rfl
@[simp] theorem State.setMem_nonce_f : (s.setMem .nonce m).f = s.f := rfl
@[simp] theorem State.setMem_nonce_ct : (s.setMem .nonce m).ct = s.ct := rfl
@[simp] theorem State.setMem_nonce_salt : (s.setMem .nonce m).salt = s.salt := rfl
@[simp] theorem State.setMem_nonce_nonce : (s.setMem .nonce m).nonce = m := rfl
@[simp] theorem State.setMem_nonce_tag : (s.setMem .nonce m).tag = s.tag := rfl
@[simp] theorem State.setMem_tag_c : (s.setMem .tag m).c = s.c := rfl
@[simp] theorem State.setMem_tag_f : (s.setMem .tag m).f = s.f := rfl
@[simp] theorem State.setMem_tag_ct : (s.setMem .tag m).ct = s.ct := rfl
@[simp] theorem State.setMem_tag_salt : (s.setMem .tag m).salt = s.salt := rfl
@[simp] theorem State.setMem_tag_nonce : (s.setMem .tag m).nonce = s.nonce := rfl
@[simp] theorem State.setMem_tag_tag : (s.setMem .tag m).tag = m := rfl

@[simp] theorem State.setCounts_cfg : (s.setCounts a n).cfg = s.cfg := rfl
@[simp] theorem State.setCounts_cmd : (s.setCounts a n).cmd = s.cmd := rfl
@[simp] theorem State.setCounts_status : (s.setCounts a n).status = s.status := rfl
@[simp] theorem State.setCounts_clen : (s.setCounts a n).clen = s.clen := rfl
@[simp] theorem State.setCounts_flen : (s.setCounts a n).flen = s.flen := rfl
@[simp] theorem State.setCounts_ctlen : (s.setCounts a n).ctlen = s.ctlen := rfl
@[simp] theorem State.setCounts_pos : (s.setCounts a n).pos = s.pos := rfl
@[simp] theorem State.setCounts_nbytes : (s.setCounts a n).nbytes = s.nbytes := rfl
@[simp] theorem State.setCounts_plen : (s.setCounts a n).plen = s.plen := rfl
@[simp] theorem State.setCounts_req : (s.setCounts a n).req = BitVec.ofNat 64 (min a (2 ^ 64 - 1)) := rfl
@[simp] theorem State.setCounts_avail : (s.setCounts a n).avail = BitVec.ofNat 64 n := rfl
@[simp] theorem State.setCounts_c : (s.setCounts a n).c = s.c := rfl
@[simp] theorem State.setCounts_f : (s.setCounts a n).f = s.f := rfl
@[simp] theorem State.setCounts_ct : (s.setCounts a n).ct = s.ct := rfl
@[simp] theorem State.setCounts_salt : (s.setCounts a n).salt = s.salt := rfl
@[simp] theorem State.setCounts_nonce : (s.setCounts a n).nonce = s.nonce := rfl
@[simp] theorem State.setCounts_tag : (s.setCounts a n).tag = s.tag := rfl
@[simp] theorem State.setCounts_turns : (s.setCounts a n).turns = s.turns := rfl
@[simp] theorem State.setCounts_reads : (s.setCounts a n).reads = s.reads := rfl
@[simp] theorem State.setCounts_awaiting : (s.setCounts a n).awaiting = s.awaiting := rfl
@[simp] theorem State.setCounts_draws : (s.setCounts a n).draws = s.draws := rfl
@[simp] theorem State.mem_setCounts : (s.setCounts a n).mem sp = s.mem sp := by cases sp <;> rfl

@[simp] theorem State.complete_cfg : (s.complete e).cfg = s.cfg := rfl
@[simp] theorem State.complete_cmd : (s.complete e).cmd = s.cmd := rfl
@[simp] theorem State.complete_status : (s.complete e).status = .done e := rfl
@[simp] theorem State.complete_clen : (s.complete e).clen = s.clen := rfl
@[simp] theorem State.complete_flen : (s.complete e).flen = s.flen := rfl
@[simp] theorem State.complete_ctlen : (s.complete e).ctlen = s.ctlen := rfl
@[simp] theorem State.complete_pos : (s.complete e).pos = s.pos := rfl
@[simp] theorem State.complete_nbytes : (s.complete e).nbytes = s.nbytes := rfl
@[simp] theorem State.complete_plen : (s.complete e).plen = s.plen := rfl
@[simp] theorem State.complete_req : (s.complete e).req = s.req := rfl
@[simp] theorem State.complete_avail : (s.complete e).avail = s.avail := rfl
@[simp] theorem State.complete_c : (s.complete e).c = s.c := rfl
@[simp] theorem State.complete_f : (s.complete e).f = s.f := rfl
@[simp] theorem State.complete_ct : (s.complete e).ct = s.ct := rfl
@[simp] theorem State.complete_salt : (s.complete e).salt = s.salt := rfl
@[simp] theorem State.complete_nonce : (s.complete e).nonce = s.nonce := rfl
@[simp] theorem State.complete_tag : (s.complete e).tag = s.tag := rfl
@[simp] theorem State.complete_turns : (s.complete e).turns = s.turns := rfl
@[simp] theorem State.complete_reads : (s.complete e).reads = s.reads := rfl
@[simp] theorem State.complete_awaiting : (s.complete e).awaiting = s.awaiting := rfl
@[simp] theorem State.complete_draws : (s.complete e).draws = s.draws + 1 := rfl
@[simp] theorem State.mem_complete : (s.complete e).mem sp = s.mem sp := by cases sp <;> rfl

@[simp] theorem State.issue_cfg : (s.issue v).cfg = s.cfg := rfl
@[simp] theorem State.issue_cmd : (s.issue v).cmd = v := rfl
@[simp] theorem State.issue_status : (s.issue v).status = .busy := rfl
@[simp] theorem State.issue_clen : (s.issue v).clen = s.clen := rfl
@[simp] theorem State.issue_flen : (s.issue v).flen = s.flen := rfl
@[simp] theorem State.issue_ctlen : (s.issue v).ctlen = s.ctlen := rfl
@[simp] theorem State.issue_pos : (s.issue v).pos = s.pos := rfl
@[simp] theorem State.issue_nbytes : (s.issue v).nbytes = s.nbytes := rfl
@[simp] theorem State.issue_plen : (s.issue v).plen = s.plen := rfl
@[simp] theorem State.issue_req : (s.issue v).req = s.req := rfl
@[simp] theorem State.issue_avail : (s.issue v).avail = s.avail := rfl
@[simp] theorem State.issue_c : (s.issue v).c = s.c := rfl
@[simp] theorem State.issue_f : (s.issue v).f = s.f := rfl
@[simp] theorem State.issue_ct : (s.issue v).ct = s.ct := rfl
@[simp] theorem State.issue_salt : (s.issue v).salt = s.salt := rfl
@[simp] theorem State.issue_nonce : (s.issue v).nonce = s.nonce := rfl
@[simp] theorem State.issue_tag : (s.issue v).tag = s.tag := rfl
@[simp] theorem State.issue_turns : (s.issue v).turns = s.turns := rfl
@[simp] theorem State.issue_reads : (s.issue v).reads = s.reads := rfl
@[simp] theorem State.issue_awaiting : (s.issue v).awaiting = true := rfl
@[simp] theorem State.issue_draws : (s.issue v).draws = s.draws := rfl
@[simp] theorem State.mem_issue : (s.issue v).mem sp = s.mem sp := by cases sp <;> rfl

@[simp] theorem State.noteRead_cfg : (s.noteRead w).cfg = s.cfg := rfl
@[simp] theorem State.noteRead_cmd : (s.noteRead w).cmd = s.cmd := rfl
@[simp] theorem State.noteRead_status : (s.noteRead w).status = s.status := rfl
@[simp] theorem State.noteRead_clen : (s.noteRead w).clen = s.clen := rfl
@[simp] theorem State.noteRead_flen : (s.noteRead w).flen = s.flen := rfl
@[simp] theorem State.noteRead_ctlen : (s.noteRead w).ctlen = s.ctlen := rfl
@[simp] theorem State.noteRead_pos : (s.noteRead w).pos = s.pos := rfl
@[simp] theorem State.noteRead_nbytes : (s.noteRead w).nbytes = s.nbytes := rfl
@[simp] theorem State.noteRead_plen : (s.noteRead w).plen = s.plen := rfl
@[simp] theorem State.noteRead_req : (s.noteRead w).req = s.req := rfl
@[simp] theorem State.noteRead_avail : (s.noteRead w).avail = s.avail := rfl
@[simp] theorem State.noteRead_c : (s.noteRead w).c = s.c := rfl
@[simp] theorem State.noteRead_f : (s.noteRead w).f = s.f := rfl
@[simp] theorem State.noteRead_ct : (s.noteRead w).ct = s.ct := rfl
@[simp] theorem State.noteRead_salt : (s.noteRead w).salt = s.salt := rfl
@[simp] theorem State.noteRead_nonce : (s.noteRead w).nonce = s.nonce := rfl
@[simp] theorem State.noteRead_tag : (s.noteRead w).tag = s.tag := rfl
@[simp] theorem State.noteRead_turns : (s.noteRead w).turns = s.turns := rfl
@[simp] theorem State.noteRead_reads : (s.noteRead w).reads = w :: s.reads := rfl
@[simp] theorem State.noteRead_awaiting : (s.noteRead w).awaiting = s.awaiting := rfl
@[simp] theorem State.noteRead_draws : (s.noteRead w).draws = s.draws := rfl
@[simp] theorem State.mem_noteRead : (s.noteRead w).mem sp = s.mem sp := by cases sp <;> rfl

@[simp] theorem State.readStatus_cfg : (s.readStatus).cfg = s.cfg := rfl
@[simp] theorem State.readStatus_cmd : (s.readStatus).cmd = s.cmd := rfl
@[simp] theorem State.readStatus_status : (s.readStatus).status = s.status := rfl
@[simp] theorem State.readStatus_clen : (s.readStatus).clen = s.clen := rfl
@[simp] theorem State.readStatus_flen : (s.readStatus).flen = s.flen := rfl
@[simp] theorem State.readStatus_ctlen : (s.readStatus).ctlen = s.ctlen := rfl
@[simp] theorem State.readStatus_pos : (s.readStatus).pos = s.pos := rfl
@[simp] theorem State.readStatus_nbytes : (s.readStatus).nbytes = s.nbytes := rfl
@[simp] theorem State.readStatus_plen : (s.readStatus).plen = s.plen := rfl
@[simp] theorem State.readStatus_req : (s.readStatus).req = s.req := rfl
@[simp] theorem State.readStatus_avail : (s.readStatus).avail = s.avail := rfl
@[simp] theorem State.readStatus_c : (s.readStatus).c = s.c := rfl
@[simp] theorem State.readStatus_f : (s.readStatus).f = s.f := rfl
@[simp] theorem State.readStatus_ct : (s.readStatus).ct = s.ct := rfl
@[simp] theorem State.readStatus_salt : (s.readStatus).salt = s.salt := rfl
@[simp] theorem State.readStatus_nonce : (s.readStatus).nonce = s.nonce := rfl
@[simp] theorem State.readStatus_tag : (s.readStatus).tag = s.tag := rfl
@[simp] theorem State.readStatus_turns : (s.readStatus).turns = s.turns := rfl
@[simp] theorem State.readStatus_reads : (s.readStatus).reads = s.regValue 1 :: s.reads := rfl
@[simp] theorem State.readStatus_awaiting : (s.readStatus).awaiting = (s.awaiting && !s.status.doneBit) := rfl
@[simp] theorem State.readStatus_draws : (s.readStatus).draws = s.draws := rfl
@[simp] theorem State.mem_readStatus : (s.readStatus).mem sp = s.mem sp := by cases sp <;> rfl

@[simp] theorem State.resetRegisters_cfg : (s.resetRegisters).cfg = s.cfg := rfl
@[simp] theorem State.resetRegisters_cmd : (s.resetRegisters).cmd = 0#8 := rfl
@[simp] theorem State.resetRegisters_status : (s.resetRegisters).status = .idle := rfl
@[simp] theorem State.resetRegisters_clen : (s.resetRegisters).clen = 0#64 := rfl
@[simp] theorem State.resetRegisters_flen : (s.resetRegisters).flen = 0#64 := rfl
@[simp] theorem State.resetRegisters_ctlen : (s.resetRegisters).ctlen = 0#64 := rfl
@[simp] theorem State.resetRegisters_pos : (s.resetRegisters).pos = 0#64 := rfl
@[simp] theorem State.resetRegisters_nbytes : (s.resetRegisters).nbytes = 0#64 := rfl
@[simp] theorem State.resetRegisters_plen : (s.resetRegisters).plen = 0#32 := rfl
@[simp] theorem State.resetRegisters_req : (s.resetRegisters).req = 0#64 := rfl
@[simp] theorem State.resetRegisters_avail : (s.resetRegisters).avail = 0#64 := rfl
@[simp] theorem State.resetRegisters_c : (s.resetRegisters).c = s.c := rfl
@[simp] theorem State.resetRegisters_f : (s.resetRegisters).f = s.f := rfl
@[simp] theorem State.resetRegisters_ct : (s.resetRegisters).ct = s.ct := rfl
@[simp] theorem State.resetRegisters_salt : (s.resetRegisters).salt = s.salt := rfl
@[simp] theorem State.resetRegisters_nonce : (s.resetRegisters).nonce = s.nonce := rfl
@[simp] theorem State.resetRegisters_tag : (s.resetRegisters).tag = s.tag := rfl
@[simp] theorem State.resetRegisters_turns : (s.resetRegisters).turns = s.turns := rfl
@[simp] theorem State.resetRegisters_reads : (s.resetRegisters).reads = s.reads := rfl
@[simp] theorem State.resetRegisters_awaiting : (s.resetRegisters).awaiting = false := rfl
@[simp] theorem State.resetRegisters_draws : (s.resetRegisters).draws = s.draws + 1 := rfl
@[simp] theorem State.mem_resetRegisters : (s.resetRegisters).mem sp = s.mem sp := by cases sp <;> rfl

@[simp] theorem State.setFlen_cfg : (s.setFlen w).cfg = s.cfg := rfl
@[simp] theorem State.setFlen_cmd : (s.setFlen w).cmd = s.cmd := rfl
@[simp] theorem State.setFlen_status : (s.setFlen w).status = s.status := rfl
@[simp] theorem State.setFlen_clen : (s.setFlen w).clen = s.clen := rfl
@[simp] theorem State.setFlen_flen : (s.setFlen w).flen = w := rfl
@[simp] theorem State.setFlen_ctlen : (s.setFlen w).ctlen = s.ctlen := rfl
@[simp] theorem State.setFlen_pos : (s.setFlen w).pos = s.pos := rfl
@[simp] theorem State.setFlen_nbytes : (s.setFlen w).nbytes = s.nbytes := rfl
@[simp] theorem State.setFlen_plen : (s.setFlen w).plen = s.plen := rfl
@[simp] theorem State.setFlen_req : (s.setFlen w).req = s.req := rfl
@[simp] theorem State.setFlen_avail : (s.setFlen w).avail = s.avail := rfl
@[simp] theorem State.setFlen_c : (s.setFlen w).c = s.c := rfl
@[simp] theorem State.setFlen_f : (s.setFlen w).f = s.f := rfl
@[simp] theorem State.setFlen_ct : (s.setFlen w).ct = s.ct := rfl
@[simp] theorem State.setFlen_salt : (s.setFlen w).salt = s.salt := rfl
@[simp] theorem State.setFlen_nonce : (s.setFlen w).nonce = s.nonce := rfl
@[simp] theorem State.setFlen_tag : (s.setFlen w).tag = s.tag := rfl
@[simp] theorem State.setFlen_turns : (s.setFlen w).turns = s.turns := rfl
@[simp] theorem State.setFlen_reads : (s.setFlen w).reads = s.reads := rfl
@[simp] theorem State.setFlen_awaiting : (s.setFlen w).awaiting = s.awaiting := rfl
@[simp] theorem State.setFlen_draws : (s.setFlen w).draws = s.draws := rfl
@[simp] theorem State.mem_setFlen : (s.setFlen w).mem sp = s.mem sp := by cases sp <;> rfl

@[simp] theorem State.setCtlen_cfg : (s.setCtlen w).cfg = s.cfg := rfl
@[simp] theorem State.setCtlen_cmd : (s.setCtlen w).cmd = s.cmd := rfl
@[simp] theorem State.setCtlen_status : (s.setCtlen w).status = s.status := rfl
@[simp] theorem State.setCtlen_clen : (s.setCtlen w).clen = s.clen := rfl
@[simp] theorem State.setCtlen_flen : (s.setCtlen w).flen = s.flen := rfl
@[simp] theorem State.setCtlen_ctlen : (s.setCtlen w).ctlen = w := rfl
@[simp] theorem State.setCtlen_pos : (s.setCtlen w).pos = s.pos := rfl
@[simp] theorem State.setCtlen_nbytes : (s.setCtlen w).nbytes = s.nbytes := rfl
@[simp] theorem State.setCtlen_plen : (s.setCtlen w).plen = s.plen := rfl
@[simp] theorem State.setCtlen_req : (s.setCtlen w).req = s.req := rfl
@[simp] theorem State.setCtlen_avail : (s.setCtlen w).avail = s.avail := rfl
@[simp] theorem State.setCtlen_c : (s.setCtlen w).c = s.c := rfl
@[simp] theorem State.setCtlen_f : (s.setCtlen w).f = s.f := rfl
@[simp] theorem State.setCtlen_ct : (s.setCtlen w).ct = s.ct := rfl
@[simp] theorem State.setCtlen_salt : (s.setCtlen w).salt = s.salt := rfl
@[simp] theorem State.setCtlen_nonce : (s.setCtlen w).nonce = s.nonce := rfl
@[simp] theorem State.setCtlen_tag : (s.setCtlen w).tag = s.tag := rfl
@[simp] theorem State.setCtlen_turns : (s.setCtlen w).turns = s.turns := rfl
@[simp] theorem State.setCtlen_reads : (s.setCtlen w).reads = s.reads := rfl
@[simp] theorem State.setCtlen_awaiting : (s.setCtlen w).awaiting = s.awaiting := rfl
@[simp] theorem State.setCtlen_draws : (s.setCtlen w).draws = s.draws := rfl
@[simp] theorem State.mem_setCtlen : (s.setCtlen w).mem sp = s.mem sp := by cases sp <;> rfl

@[simp] theorem State.setPlen_cfg (w : Half) : (s.setPlen w).cfg = s.cfg := rfl
@[simp] theorem State.setPlen_cmd (w : Half) : (s.setPlen w).cmd = s.cmd := rfl
@[simp] theorem State.setPlen_status (w : Half) : (s.setPlen w).status = s.status := rfl
@[simp] theorem State.setPlen_clen (w : Half) : (s.setPlen w).clen = s.clen := rfl
@[simp] theorem State.setPlen_flen (w : Half) : (s.setPlen w).flen = s.flen := rfl
@[simp] theorem State.setPlen_ctlen (w : Half) : (s.setPlen w).ctlen = s.ctlen := rfl
@[simp] theorem State.setPlen_pos (w : Half) : (s.setPlen w).pos = s.pos := rfl
@[simp] theorem State.setPlen_nbytes (w : Half) : (s.setPlen w).nbytes = s.nbytes := rfl
@[simp] theorem State.setPlen_plen (w : Half) : (s.setPlen w).plen = w := rfl
@[simp] theorem State.setPlen_req (w : Half) : (s.setPlen w).req = s.req := rfl
@[simp] theorem State.setPlen_avail (w : Half) : (s.setPlen w).avail = s.avail := rfl
@[simp] theorem State.setPlen_c (w : Half) : (s.setPlen w).c = s.c := rfl
@[simp] theorem State.setPlen_f (w : Half) : (s.setPlen w).f = s.f := rfl
@[simp] theorem State.setPlen_ct (w : Half) : (s.setPlen w).ct = s.ct := rfl
@[simp] theorem State.setPlen_salt (w : Half) : (s.setPlen w).salt = s.salt := rfl
@[simp] theorem State.setPlen_nonce (w : Half) : (s.setPlen w).nonce = s.nonce := rfl
@[simp] theorem State.setPlen_tag (w : Half) : (s.setPlen w).tag = s.tag := rfl
@[simp] theorem State.setPlen_turns (w : Half) : (s.setPlen w).turns = s.turns := rfl
@[simp] theorem State.setPlen_reads (w : Half) : (s.setPlen w).reads = s.reads := rfl
@[simp] theorem State.setPlen_awaiting (w : Half) : (s.setPlen w).awaiting = s.awaiting := rfl
@[simp] theorem State.setPlen_draws (w : Half) : (s.setPlen w).draws = s.draws := rfl
@[simp] theorem State.mem_setPlen (w : Half) : (s.setPlen w).mem sp = s.mem sp := by cases sp <;> rfl

end Sys2Proof.Machine
end

