-- ==== Sys2Proof/Laws/Memory.lean ====
section
/-! SUPPORT. What the operations over a space do: reading after writing, and the canonical form. -/

namespace Sys2Proof.Machine

@[simp] theorem Memory.read_nil (a : Nat) : Memory.read [] a = none := rfl

@[simp] theorem Memory.read_cons (k : Nat) (v : Byte) (m : Memory) (a : Nat) :
    Memory.read ((k, v) :: m) a = if k = a then some v else Memory.read m a := rfl

theorem Memory.read_append (m n : Memory) (a : Nat) :
    Memory.read (m ++ n) a = (Memory.read m a).or (Memory.read n a) := by
  induction m with
  | nil => simp
  | cons e m ih =>
    obtain ⟨k, v⟩ := e
    by_cases h : k = a <;> simp [h, ih]

theorem Memory.read_filter (p : Nat → Bool) (m : Memory) (a : Nat) :
    Memory.read (m.filter (fun e => p e.1)) a = if p a then Memory.read m a else none := by
  induction m with
  | nil => simp
  | cons e m ih =>
    obtain ⟨k, v⟩ := e
    by_cases hk : p k <;> by_cases h : k = a
    · subst h; simp [hk]
    · simp [hk, h, ih]
    · subst h; simp [hk, ih]
    · simp [hk, h, ih]

theorem Memory.entries_cons (a : Nat) (b : Byte) (bytes : List Byte) :
    Memory.entries a (b :: bytes) = (a, b) :: Memory.entries (a + 1) bytes := rfl

theorem Memory.read_entries (a : Nat) (bytes : List Byte) (i : Nat) :
    Memory.read (Memory.entries a bytes) i = if a ≤ i then bytes[i - a]? else none := by
  induction bytes generalizing a with
  | nil => simp [Memory.entries]
  | cons b bytes ih =>
    rw [Memory.entries_cons, Memory.read_cons, ih]
    rcases Nat.lt_trichotomy a i with h | h | h
    · obtain ⟨d, rfl⟩ : ∃ d, i = a + 1 + d := ⟨i - (a + 1), by omega⟩
      have e1 : a + 1 + d - (a + 1) = d := by omega
      have e2 : a + 1 + d - a = d + 1 := by omega
      rw [if_neg (by omega), if_pos (by omega), if_pos (by omega), e1, e2, List.getElem?_cons_succ]
    · subst h; simp
    · rw [if_neg (by omega), if_neg (by omega), if_neg (by omega)]

/-- Everything a write does, seen through reads: inside the written range the new bytes, outside it the old ones. -/
theorem Memory.read_write (m : Memory) (a : Nat) (bytes : List Byte) (i : Nat) :
    Memory.read (m.write a bytes) i =
      if a ≤ i ∧ i < a + bytes.length then bytes[i - a]? else Memory.read m i := by
  unfold Memory.write
  rw [Memory.read_append, Memory.read_append, Memory.read_entries,
    Memory.read_filter (fun k => decide (k < a)), Memory.read_filter (fun k => decide (a + bytes.length ≤ k))]
  rcases Nat.lt_or_ge i a with h | h
  · simp [h, Nat.not_le.mpr h, show ¬ a + bytes.length ≤ i by omega]
  · rcases Nat.lt_or_ge i (a + bytes.length) with h' | h'
    · have hl : i - a < bytes.length := by omega
      simp [h, Nat.not_lt.mpr h, h', List.getElem?_eq_getElem hl]
    · have hl : bytes.length ≤ i - a := by omega
      simp [h, Nat.not_lt.mpr h, h', Nat.not_lt.mpr h', List.getElem?_eq_none hl]

theorem Memory.read_write_inside {m : Memory} {a : Nat} {bytes : List Byte} {j : Nat} (h : j < bytes.length) :
    Memory.read (m.write a bytes) (a + j) = some bytes[j] := by
  rw [Memory.read_write, if_pos (by omega)]
  simp [h]

theorem Memory.read_write_outside {m : Memory} {a : Nat} {bytes : List Byte} {i : Nat}
    (h : i < a ∨ a + bytes.length ≤ i) : Memory.read (m.write a bytes) i = Memory.read m i := by
  rw [Memory.read_write, if_neg (by omega)]

theorem Memory.mem_entries {a : Nat} {bytes : List Byte} {e : Host.Cell} (h : e ∈ Memory.entries a bytes) :
    a ≤ e.1 ∧ e.1 < a + bytes.length := by
  simp only [Memory.entries, List.mem_map, Prod.exists] at h
  obtain ⟨b, i, hbi, rfl⟩ := h
  have := List.mem_zipIdx hbi
  simp only; omega

theorem Memory.wf_entries (a : Nat) (bytes : List Byte) : (Memory.entries a bytes).wf := by
  induction bytes generalizing a with
  | nil => exact List.Pairwise.nil
  | cons b bytes ih =>
    rw [Memory.entries_cons]
    exact List.Pairwise.cons (fun e he => by have := (Memory.mem_entries he).1; simp only; omega) (ih _)

/-- A write keeps the canonical form. -/
theorem Memory.wf_write {m : Memory} (h : m.wf) (a : Nat) (bytes : List Byte) : (m.write a bytes).wf := by
  unfold Memory.write
  refine List.pairwise_append.mpr ⟨List.pairwise_append.mpr ⟨h.filter _, Memory.wf_entries _ _, ?_⟩, h.filter _, ?_⟩
  · intro x hx y hy
    have h1 := (List.mem_filter.mp hx).2
    have h2 := (Memory.mem_entries hy).1
    simp only [decide_eq_true_eq] at h1
    omega
  · intro x hx y hy
    have h2 := (List.mem_filter.mp hy).2
    simp only [decide_eq_true_eq] at h2
    rcases List.mem_append.mp hx with hx | hx
    · have h1 := (List.mem_filter.mp hx).2
      simp only [decide_eq_true_eq] at h1
      omega
    · have h1 := (Memory.mem_entries hx).2
      omega

/-- A write within a capacity lists nothing beyond it. -/
theorem Memory.bound_write {m : Memory} {cap : Nat} (h : ∀ e ∈ m, e.1 < cap) {a : Nat} {bytes : List Byte}
    (hb : bytes = [] ∨ a + bytes.length ≤ cap) : ∀ e ∈ m.write a bytes, e.1 < cap := by
  intro e he
  unfold Memory.write at he
  rcases List.mem_append.mp he with he | he
  · rcases List.mem_append.mp he with he | he
    · exact h e (List.mem_filter.mp he).1
    · have := Memory.mem_entries he
      rcases hb with rfl | hb
      · simp at this; omega
      · omega
  · exact h e (List.mem_filter.mp he).1

theorem Memory.read_cutShort (landed : Nat → Bool) (old new : Memory) (a : Nat)
    (h : Memory.read new a = none → Memory.read old a = none) :
    Memory.read (Memory.cutShort landed old new) a =
      if landed a then Memory.read new a else Memory.read old a := by
  have key : ∀ n : Memory, Memory.read (Memory.cutShort landed old n) a =
      if Memory.read n a = none then none else if landed a then Memory.read n a else Memory.read old a := by
    intro n
    induction n with
    | nil => simp [Memory.cutShort]
    | cons e n ih =>
      obtain ⟨k, v⟩ := e
      have step : Memory.cutShort landed old ((k, v) :: n) =
          (if landed k then [(k, v)] else ((Memory.read old k).map (fun v => (k, v))).toList)
            ++ Memory.cutShort landed old n := by
        unfold Memory.cutShort
        rw [List.filterMap_cons]
        by_cases hl : landed k
        · simp [hl]
        · cases hr : Memory.read old k <;> simp [hl]
      rw [step, Memory.read_append, ih]
      by_cases hk : k = a
      · subst hk
        by_cases hl : landed k
        · simp [hl]
        · cases hr : Memory.read old k <;> simp [hl]
      · by_cases hl : landed k
        · simp [hl, hk]
        · cases hr : Memory.read old k <;> simp [hl, hk]
  rw [key]
  by_cases hn : Memory.read new a = none
  · simp [hn, h hn]
  · simp [hn]

theorem Memory.mem_cutShort {landed : Nat → Bool} {old new : Memory} {e : Host.Cell}
    (h : e ∈ Memory.cutShort landed old new) : ∃ v, (e.1, v) ∈ new := by
  simp only [Memory.cutShort, List.mem_filterMap] at h
  obtain ⟨x, hx, hxe⟩ := h
  split at hxe
  · cases hxe; exact ⟨_, hx⟩
  · cases hr : Memory.read old x.1 with
    | none => simp [hr] at hxe
    | some v => simp [hr] at hxe; subst hxe; exact ⟨x.2, hx⟩

/-- Cutting the writes short keeps the canonical form. -/
theorem Memory.wf_cutShort {landed : Nat → Bool} {old new : Memory} (h : new.wf) :
    (Memory.cutShort landed old new).wf := by
  induction new with
  | nil => exact List.Pairwise.nil
  | cons e n ih =>
    obtain ⟨h1, h2⟩ := List.pairwise_cons.mp h
    unfold Memory.cutShort
    rw [List.filterMap_cons]
    have tail := ih h2
    have first : ∀ y ∈ Memory.cutShort landed old n, e.1 < y.1 := by
      intro y hy
      obtain ⟨v, hv⟩ := Memory.mem_cutShort hy
      exact h1 (y.1, v) hv
    split
    · exact tail
    · rename_i x hx
      refine List.Pairwise.cons ?_ tail
      intro y hy
      have hxe : x.1 = e.1 := by
        split at hx
        · cases hx; rfl
        · cases hr : Memory.read old e.1 with
          | none => simp [hr] at hx
          | some v => simp [hr] at hx; subst hx; rfl
      rw [hxe]; exact first y hy

end Sys2Proof.Machine
end

