-- ==== Sys2Proof/Laws/Bits.lean ====
section
/-! SUPPORT. The bit and byte orders: the bits of a packed byte, the index formula of serialised bits, the digits of
the Header, and the least-significant-bit accesses to the cover. -/

namespace Sys2Proof.Machine

@[simp] theorem byteBits_length (b : Byte) : (byteBits b).length = 8 := rfl

theorem byteBits_getElem (b : Byte) (t : Nat) (h : t < 8) :
    (byteBits b)[t]? = some (b.getLsbD (7 - t)) := by
  match t, h with
  | 0, _ | 1, _ | 2, _ | 3, _ | 4, _ | 5, _ | 6, _ | 7, _ => rfl

@[simp] theorem bitsOf_nil : bitsOf [] = [] := rfl

@[simp] theorem bitsOf_cons (b : Byte) (s : List Byte) : bitsOf (b :: s) = byteBits b ++ bitsOf s := rfl

@[simp] theorem bitsOf_append (s t : List Byte) : bitsOf (s ++ t) = bitsOf s ++ bitsOf t := by
  simp [bitsOf]

@[simp] theorem bitsOf_length (s : List Byte) : (bitsOf s).length = 8 * s.length := by
  induction s with
  | nil => rfl
  | cons b s ih => simp [ih]; omega

/-- Bit `k` of a serialised sequence is bit `7 - k mod 8` of byte `k div 8` (spec R10). -/
theorem bitsOf_getElem (s : List Byte) (k : Nat) :
    (bitsOf s)[k]? = (s[k / 8]?).map (fun b => b.getLsbD (7 - k % 8)) := by
  induction s generalizing k with
  | nil => simp
  | cons b s ih =>
    rw [bitsOf_cons]
    rcases Nat.lt_or_ge k 8 with h | h
    · rw [List.getElem?_append_left (by simpa using h), byteBits_getElem b k h,
        show k / 8 = 0 by omega, show k % 8 = k by omega]
      rfl
    · obtain ⟨d, rfl⟩ : ∃ d, k = d + 8 := ⟨k - 8, by omega⟩
      rw [List.getElem?_append_right (by simp), byteBits_length, ih,
        show (d + 8) / 8 = d / 8 + 1 by omega, show d + 8 - 8 = d by omega,
        show (d + 8) % 8 = d % 8 by omega, List.getElem?_cons_succ]

/-- Packing the bits of a byte gives the byte back. -/
theorem packByte_bits (b : Byte) :
    packByte (b.getLsbD 7) (b.getLsbD 6) (b.getLsbD 5) (b.getLsbD 4)
      (b.getLsbD 3) (b.getLsbD 2) (b.getLsbD 1) (b.getLsbD 0) = b := by
  revert b; decide

theorem byteBits_packByte (b0 b1 b2 b3 b4 b5 b6 b7 : Bool) :
    byteBits (packByte b0 b1 b2 b3 b4 b5 b6 b7) = [b0, b1, b2, b3, b4, b5, b6, b7] := by
  revert b0 b1 b2 b3 b4 b5 b6 b7; decide

theorem packByte_inj {b0 b1 b2 b3 b4 b5 b6 b7 c0 c1 c2 c3 c4 c5 c6 c7 : Bool} :
    packByte b0 b1 b2 b3 b4 b5 b6 b7 = packByte c0 c1 c2 c3 c4 c5 c6 c7 ↔
      [b0, b1, b2, b3, b4, b5, b6, b7] = [c0, c1, c2, c3, c4, c5, c6, c7] := by
  constructor
  · intro h; rw [← byteBits_packByte, ← byteBits_packByte, h]
  · intro h; simp only [List.cons.injEq] at h; obtain ⟨rfl, rfl, rfl, rfl, rfl, rfl, rfl, rfl, -⟩ := h; rfl

/-- The digits of a number below 2^32 and the number of the digits (spec R12). -/
theorem be32_four (a b c d : Byte) :
    be32 [a, b, c, d] = a.toNat * 2 ^ 24 + b.toNat * 2 ^ 16 + c.toNat * 2 ^ 8 + d.toNat := by
  simp only [be32, List.foldl]; omega

@[simp] theorem u32be_length (v : Nat) : (u32be v).length = 4 := rfl

theorem be32_lt {s : List Byte} (h : s.length = 4) : be32 s < 2 ^ 32 := by
  obtain ⟨a, b, c, d, rfl⟩ : ∃ a b c d, s = [a, b, c, d] := by
    match s, h with
    | [a, b, c, d], _ => exact ⟨a, b, c, d, rfl⟩
  rw [be32_four]
  have := a.isLt; have := b.isLt; have := c.isLt; have := d.isLt
  omega

@[simp] theorem withLsb_lsb (c : Byte) (b : Bool) : (withLsb c b).getLsbD 0 = b := by
  revert c b; decide

/-- The bit as the formula of spec R10 writes it. -/
theorem withLsb_eq (c f : Byte) (n : Nat) :
    withLsb c (f.getLsbD n) = (c &&& 0xFE#8) ||| ((f >>> n) &&& 1#8) := by
  unfold withLsb
  congr 1
  have bit : ∀ x : Byte, (if x.getLsbD 0 then 1#8 else 0#8) = x &&& 1#8 := by decide
  rw [← bit, BitVec.getLsbD_ushiftRight, Nat.add_zero]

/-- An element moves by at most one (spec R66, R114). -/
theorem withLsb_near (c : Byte) (b : Bool) :
    (withLsb c b).toNat ≤ c.toNat + 1 ∧ c.toNat ≤ (withLsb c b).toNat + 1 := by
  revert c b; decide

/-- Replacing bit 0 by itself changes nothing, and the last replacement counts. -/
theorem withLsb_withLsb (c : Byte) (b d : Bool) : withLsb (withLsb c b) d = withLsb c d := by
  revert c b d; decide

/-- Bits 7:1 of an element stay (spec R66). -/
theorem withLsb_upper (c : Byte) (b : Bool) (k : Nat) (h : k ≠ 0) :
    (withLsb c b).getLsbD k = c.getLsbD k := by
  rcases Nat.lt_or_ge k 8 with hk | hk
  · have all : ∀ (c : Byte) (b : Bool) (k : Fin 8), k.val ≠ 0 → (withLsb c b).getLsbD k = c.getLsbD k := by decide
    exact all c b ⟨k, hk⟩ h
  · rw [BitVec.getLsbD_of_ge _ _ hk, BitVec.getLsbD_of_ge _ _ hk]

/-- A byte written before is read as written, whatever the draw. -/
theorem State.peek_of_read {s : State} {sp : Space} {i : Nat} {v : Byte} (h : (s.mem sp).read i = some v) :
    s.peek sp i = v := by
  simp [State.peek, h]

/-- What a byte reads as depends on the space and the draw alone. -/
theorem State.peek_congr {s t : State} {sp : Space} {i : Nat} (h : (s.mem sp).read i = (t.mem sp).read i)
    (hd : s.draws = t.draws) : s.peek sp i = t.peek sp i := by
  simp [State.peek, h, hd]

@[simp] theorem State.memRead_length (s : State) (sp : Space) (a n : Nat) : (s.memRead sp a n).length = n := by
  simp [State.memRead]

@[simp] theorem State.lsbRead_length (s : State) (a n : Nat) : (s.lsbRead a n).length = n := by
  simp [State.lsbRead]

theorem State.memRead_getElem (s : State) (sp : Space) (a n j : Nat) (h : j < n) :
    (s.memRead sp a n)[j]? = some (s.peek sp (a + j)) := by
  simp [State.memRead, h]

theorem State.lsbRead_getElem (s : State) (a n j : Nat) (h : j < n) :
    (s.lsbRead a n)[j]? = some (s.lsbByte (a + 8 * j)) := by
  simp [State.lsbRead, h]

theorem State.memRead_congr {s t : State} {sp : Space} {a n : Nat}
    (h : ∀ j < n, s.peek sp (a + j) = t.peek sp (a + j)) : s.memRead sp a n = t.memRead sp a n := by
  simp only [State.memRead]
  exact List.map_congr_left (fun j hj => h j (List.mem_range.mp hj))

theorem State.lsbByte_congr {s t : State} {k l : Nat} (h : ∀ i < 8, s.lsb (k + i) = t.lsb (l + i)) :
    s.lsbByte k = t.lsbByte l := by
  have h0 := h 0 (by omega)
  simp only [Nat.add_zero] at h0
  simp only [State.lsbByte, h0, h 1 (by omega), h 2 (by omega), h 3 (by omega), h 4 (by omega), h 5 (by omega),
    h 6 (by omega), h 7 (by omega)]

/-- Bytes read from the cover depend on bit 0 of the elements read and on nothing else (spec R119). -/
theorem State.lsbRead_congr {s t : State} {a n : Nat} (h : ∀ k < 8 * n, s.lsb (a + k) = t.lsb (a + k)) :
    s.lsbRead a n = t.lsbRead a n := by
  simp only [State.lsbRead]
  refine List.map_congr_left (fun j hj => State.lsbByte_congr (fun i hi => ?_))
  have hj := List.mem_range.mp hj
  rw [Nat.add_assoc]
  exact h _ (by omega)

/-- A byte read from the cover, in terms of any byte whose bits the eight elements carry. -/
theorem State.lsbByte_eq {s : State} {k : Nat} {b : Byte} (h : ∀ t < 8, s.lsb (k + t) = b.getLsbD (7 - t)) :
    s.lsbByte k = b := by
  have h0 := h 0 (by omega)
  simp only [Nat.add_zero] at h0
  rw [State.lsbByte, h0, h 1 (by omega), h 2 (by omega), h 3 (by omega), h 4 (by omega), h 5 (by omega),
    h 6 (by omega), h 7 (by omega)]
  exact packByte_bits b

theorem State.lsbByte_bit (s : State) (k t : Nat) (h : t < 8) : (s.lsbByte k).getLsbD (7 - t) = s.lsb (k + t) := by
  have hb : (byteBits (s.lsbByte k))[t]? = some ((s.lsbByte k).getLsbD (7 - t)) := byteBits_getElem _ _ h
  rw [State.lsbByte, byteBits_packByte] at hb
  rw [State.lsbByte]
  match t, h with
  | 0, _ | 1, _ | 2, _ | 3, _ | 4, _ | 5, _ | 6, _ | 7, _ => simpa using hb.symm

/-- Reading bytes in two parts (spec R119). -/
theorem State.lsbRead_drop (s : State) (a n d : Nat) : (s.lsbRead a n).drop d = s.lsbRead (a + 8 * d) (n - d) := by
  apply List.ext_getElem?
  intro j
  rw [List.getElem?_drop]
  rcases Nat.lt_or_ge j (n - d) with h | h
  · rw [State.lsbRead_getElem _ _ _ _ (by omega), State.lsbRead_getElem _ _ _ _ h]
    congr 2; omega
  · rw [List.getElem?_eq_none (by simp; omega), List.getElem?_eq_none (by simp; omega)]

theorem State.lsbRead_take (s : State) (a n d : Nat) : (s.lsbRead a n).take d = s.lsbRead a (min d n) := by
  apply List.ext_getElem?
  intro j
  rw [List.getElem?_take]
  rcases Nat.lt_or_ge j (min d n) with h | h
  · rw [if_pos (by omega), State.lsbRead_getElem _ _ _ _ (by omega), State.lsbRead_getElem _ _ _ _ h]
  · have e : (s.lsbRead a (min d n))[j]? = none := List.getElem?_eq_none (by rw [State.lsbRead_length]; exact h)
    rw [e]
    split
    · rw [List.getElem?_eq_none (by rw [State.lsbRead_length]; omega)]
    · rfl

theorem State.coverHeader_lt (s : State) : s.coverHeader < 2 ^ 32 := be32_lt (by simp)

/-- The Header depends on bit 0 of elements 0 to 31 alone (spec R98). -/
theorem State.coverHeader_congr {s t : State} (h : ∀ k < 32, s.lsb k = t.lsb k) : s.coverHeader = t.coverHeader := by
  unfold State.coverHeader
  rw [State.lsbRead_congr (t := t) (by simpa using h)]

/-- Everything LsbWrite does to the cover, seen through reads (spec R14). -/
theorem State.lsbWrite_read (s : State) (bits : List Bool) (i : Nat) :
    (s.lsbWrite bits).c.read i =
      match bits[i]? with
      | some b => some (withLsb (s.peek .c i) b)
      | none => s.c.read i := by
  simp only [State.lsbWrite, State.memWrite, State.setMem_c_c, State.mem_c]
  rcases Nat.lt_or_ge i bits.length with h | h
  · rw [Memory.read_write, if_pos (by simpa using h)]
    simp [h]
  · rw [Memory.read_write_outside (by simpa using h), List.getElem?_eq_none h]

end Sys2Proof.Machine
end

