-- ==== Sys2Proof/Laws/Commands.lean ====
section
/-! SUPPORT. What the four commands do, said once: each outcome of each command as one update of the state, and what
each data movement changes. -/

namespace Sys2Proof.Machine

variable (s : State) (sp sq : Space) (a : Nat) (bytes : List Byte) (bits : List Bool)

/-! The data movements leave every register alone but the one they name. -/

@[simp] theorem State.memWrite_cfg : (s.memWrite sp a bytes).cfg = s.cfg := by simp [State.memWrite]
@[simp] theorem State.memWrite_cmd : (s.memWrite sp a bytes).cmd = s.cmd := by simp [State.memWrite]
@[simp] theorem State.memWrite_status : (s.memWrite sp a bytes).status = s.status := by simp [State.memWrite]
@[simp] theorem State.memWrite_clen : (s.memWrite sp a bytes).clen = s.clen := by simp [State.memWrite]
@[simp] theorem State.memWrite_flen : (s.memWrite sp a bytes).flen = s.flen := by simp [State.memWrite]
@[simp] theorem State.memWrite_ctlen : (s.memWrite sp a bytes).ctlen = s.ctlen := by simp [State.memWrite]
@[simp] theorem State.memWrite_pos : (s.memWrite sp a bytes).pos = s.pos := by simp [State.memWrite]
@[simp] theorem State.memWrite_nbytes : (s.memWrite sp a bytes).nbytes = s.nbytes := by simp [State.memWrite]
@[simp] theorem State.memWrite_plen : (s.memWrite sp a bytes).plen = s.plen := by simp [State.memWrite]
@[simp] theorem State.memWrite_req : (s.memWrite sp a bytes).req = s.req := by simp [State.memWrite]
@[simp] theorem State.memWrite_avail : (s.memWrite sp a bytes).avail = s.avail := by simp [State.memWrite]
@[simp] theorem State.memWrite_turns : (s.memWrite sp a bytes).turns = s.turns := by simp [State.memWrite]
@[simp] theorem State.memWrite_reads : (s.memWrite sp a bytes).reads = s.reads := by simp [State.memWrite]
@[simp] theorem State.memWrite_awaiting : (s.memWrite sp a bytes).awaiting = s.awaiting := by simp [State.memWrite]
@[simp] theorem State.memWrite_draws : (s.memWrite sp a bytes).draws = s.draws := by simp [State.memWrite]

/-- A write changes the space written and no other. -/
@[simp] theorem State.mem_memWrite :
    (s.memWrite sp a bytes).mem sq = if sq = sp then (s.mem sp).write a bytes else s.mem sq := by
  simp [State.memWrite]

@[simp] theorem State.memWrite_c_c : (s.memWrite .c a bytes).c = s.c.write a bytes := rfl
@[simp] theorem State.memWrite_c_f : (s.memWrite .c a bytes).f = s.f := rfl
@[simp] theorem State.memWrite_c_ct : (s.memWrite .c a bytes).ct = s.ct := rfl
@[simp] theorem State.memWrite_c_salt : (s.memWrite .c a bytes).salt = s.salt := rfl
@[simp] theorem State.memWrite_c_nonce : (s.memWrite .c a bytes).nonce = s.nonce := rfl
@[simp] theorem State.memWrite_c_tag : (s.memWrite .c a bytes).tag = s.tag := rfl
@[simp] theorem State.memWrite_f_c : (s.memWrite .f a bytes).c = s.c := rfl
@[simp] theorem State.memWrite_f_f : (s.memWrite .f a bytes).f = s.f.write a bytes := rfl
@[simp] theorem State.memWrite_f_ct : (s.memWrite .f a bytes).ct = s.ct := rfl
@[simp] theorem State.memWrite_f_salt : (s.memWrite .f a bytes).salt = s.salt := rfl
@[simp] theorem State.memWrite_f_nonce : (s.memWrite .f a bytes).nonce = s.nonce := rfl
@[simp] theorem State.memWrite_f_tag : (s.memWrite .f a bytes).tag = s.tag := rfl
@[simp] theorem State.memWrite_ct_c : (s.memWrite .ct a bytes).c = s.c := rfl
@[simp] theorem State.memWrite_ct_f : (s.memWrite .ct a bytes).f = s.f := rfl
@[simp] theorem State.memWrite_ct_ct : (s.memWrite .ct a bytes).ct = s.ct.write a bytes := rfl
@[simp] theorem State.memWrite_ct_salt : (s.memWrite .ct a bytes).salt = s.salt := rfl
@[simp] theorem State.memWrite_ct_nonce : (s.memWrite .ct a bytes).nonce = s.nonce := rfl
@[simp] theorem State.memWrite_ct_tag : (s.memWrite .ct a bytes).tag = s.tag := rfl
@[simp] theorem State.memWrite_salt_c : (s.memWrite .salt a bytes).c = s.c := rfl
@[simp] theorem State.memWrite_salt_f : (s.memWrite .salt a bytes).f = s.f := rfl
@[simp] theorem State.memWrite_salt_ct : (s.memWrite .salt a bytes).ct = s.ct := rfl
@[simp] theorem State.memWrite_salt_salt : (s.memWrite .salt a bytes).salt = s.salt.write a bytes := rfl
@[simp] theorem State.memWrite_salt_nonce : (s.memWrite .salt a bytes).nonce = s.nonce := rfl
@[simp] theorem State.memWrite_salt_tag : (s.memWrite .salt a bytes).tag = s.tag := rfl
@[simp] theorem State.memWrite_nonce_c : (s.memWrite .nonce a bytes).c = s.c := rfl
@[simp] theorem State.memWrite_nonce_f : (s.memWrite .nonce a bytes).f = s.f := rfl
@[simp] theorem State.memWrite_nonce_ct : (s.memWrite .nonce a bytes).ct = s.ct := rfl
@[simp] theorem State.memWrite_nonce_salt : (s.memWrite .nonce a bytes).salt = s.salt := rfl
@[simp] theorem State.memWrite_nonce_nonce : (s.memWrite .nonce a bytes).nonce = s.nonce.write a bytes := rfl
@[simp] theorem State.memWrite_nonce_tag : (s.memWrite .nonce a bytes).tag = s.tag := rfl
@[simp] theorem State.memWrite_tag_c : (s.memWrite .tag a bytes).c = s.c := rfl
@[simp] theorem State.memWrite_tag_f : (s.memWrite .tag a bytes).f = s.f := rfl
@[simp] theorem State.memWrite_tag_ct : (s.memWrite .tag a bytes).ct = s.ct := rfl
@[simp] theorem State.memWrite_tag_salt : (s.memWrite .tag a bytes).salt = s.salt := rfl
@[simp] theorem State.memWrite_tag_nonce : (s.memWrite .tag a bytes).nonce = s.nonce := rfl
@[simp] theorem State.memWrite_tag_tag : (s.memWrite .tag a bytes).tag = s.tag.write a bytes := rfl

@[simp] theorem State.lsbWrite_cfg : (s.lsbWrite bits).cfg = s.cfg := rfl
@[simp] theorem State.lsbWrite_cmd : (s.lsbWrite bits).cmd = s.cmd := rfl
@[simp] theorem State.lsbWrite_status : (s.lsbWrite bits).status = s.status := rfl
@[simp] theorem State.lsbWrite_clen : (s.lsbWrite bits).clen = s.clen := rfl
@[simp] theorem State.lsbWrite_flen : (s.lsbWrite bits).flen = s.flen := rfl
@[simp] theorem State.lsbWrite_ctlen : (s.lsbWrite bits).ctlen = s.ctlen := rfl
@[simp] theorem State.lsbWrite_pos : (s.lsbWrite bits).pos = s.pos := rfl
@[simp] theorem State.lsbWrite_nbytes : (s.lsbWrite bits).nbytes = s.nbytes := rfl
@[simp] theorem State.lsbWrite_plen : (s.lsbWrite bits).plen = s.plen := rfl
@[simp] theorem State.lsbWrite_req : (s.lsbWrite bits).req = s.req := rfl
@[simp] theorem State.lsbWrite_avail : (s.lsbWrite bits).avail = s.avail := rfl
@[simp] theorem State.lsbWrite_f : (s.lsbWrite bits).f = s.f := rfl
@[simp] theorem State.lsbWrite_ct : (s.lsbWrite bits).ct = s.ct := rfl
@[simp] theorem State.lsbWrite_salt : (s.lsbWrite bits).salt = s.salt := rfl
@[simp] theorem State.lsbWrite_nonce : (s.lsbWrite bits).nonce = s.nonce := rfl
@[simp] theorem State.lsbWrite_tag : (s.lsbWrite bits).tag = s.tag := rfl
@[simp] theorem State.lsbWrite_turns : (s.lsbWrite bits).turns = s.turns := rfl
@[simp] theorem State.lsbWrite_reads : (s.lsbWrite bits).reads = s.reads := rfl
@[simp] theorem State.lsbWrite_awaiting : (s.lsbWrite bits).awaiting = s.awaiting := rfl
@[simp] theorem State.lsbWrite_draws : (s.lsbWrite bits).draws = s.draws := rfl

@[simp] theorem State.assembleFrame_cfg : s.assembleFrame.cfg = s.cfg := by simp [State.assembleFrame]
@[simp] theorem State.assembleFrame_cmd : s.assembleFrame.cmd = s.cmd := by simp [State.assembleFrame]
@[simp] theorem State.assembleFrame_status : s.assembleFrame.status = s.status := by simp [State.assembleFrame]
@[simp] theorem State.assembleFrame_clen : s.assembleFrame.clen = s.clen := by simp [State.assembleFrame]
@[simp] theorem State.assembleFrame_ctlen : s.assembleFrame.ctlen = s.ctlen := by simp [State.assembleFrame]
@[simp] theorem State.assembleFrame_pos : s.assembleFrame.pos = s.pos := by simp [State.assembleFrame]
@[simp] theorem State.assembleFrame_nbytes : s.assembleFrame.nbytes = s.nbytes := by simp [State.assembleFrame]
@[simp] theorem State.assembleFrame_plen : s.assembleFrame.plen = s.plen := by simp [State.assembleFrame]
@[simp] theorem State.assembleFrame_req : s.assembleFrame.req = s.req := by simp [State.assembleFrame]
@[simp] theorem State.assembleFrame_avail : s.assembleFrame.avail = s.avail := by simp [State.assembleFrame]
@[simp] theorem State.assembleFrame_c : s.assembleFrame.c = s.c := by simp [State.assembleFrame]
@[simp] theorem State.assembleFrame_ct : s.assembleFrame.ct = s.ct := by simp [State.assembleFrame]
@[simp] theorem State.assembleFrame_salt : s.assembleFrame.salt = s.salt := by simp [State.assembleFrame]
@[simp] theorem State.assembleFrame_nonce : s.assembleFrame.nonce = s.nonce := by simp [State.assembleFrame]
@[simp] theorem State.assembleFrame_tag : s.assembleFrame.tag = s.tag := by simp [State.assembleFrame]
@[simp] theorem State.assembleFrame_turns : s.assembleFrame.turns = s.turns := by simp [State.assembleFrame]
@[simp] theorem State.assembleFrame_reads : s.assembleFrame.reads = s.reads := by simp [State.assembleFrame]
@[simp] theorem State.assembleFrame_awaiting : s.assembleFrame.awaiting = s.awaiting := by simp [State.assembleFrame]
@[simp] theorem State.assembleFrame_draws : s.assembleFrame.draws = s.draws := by simp [State.assembleFrame]
@[simp] theorem State.assembleFrame_flen : s.assembleFrame.flen = BitVec.ofNat 64 (48 + s.ctlen.toNat) := by simp [State.assembleFrame]

@[simp] theorem State.splitBody_cfg : (s.splitBody bytes).cfg = s.cfg := by simp [State.splitBody]
@[simp] theorem State.splitBody_cmd : (s.splitBody bytes).cmd = s.cmd := by simp [State.splitBody]
@[simp] theorem State.splitBody_status : (s.splitBody bytes).status = s.status := by simp [State.splitBody]
@[simp] theorem State.splitBody_clen : (s.splitBody bytes).clen = s.clen := by simp [State.splitBody]
@[simp] theorem State.splitBody_flen : (s.splitBody bytes).flen = s.flen := by simp [State.splitBody]
@[simp] theorem State.splitBody_pos : (s.splitBody bytes).pos = s.pos := by simp [State.splitBody]
@[simp] theorem State.splitBody_nbytes : (s.splitBody bytes).nbytes = s.nbytes := by simp [State.splitBody]
@[simp] theorem State.splitBody_plen : (s.splitBody bytes).plen = s.plen := by simp [State.splitBody]
@[simp] theorem State.splitBody_req : (s.splitBody bytes).req = s.req := by simp [State.splitBody]
@[simp] theorem State.splitBody_avail : (s.splitBody bytes).avail = s.avail := by simp [State.splitBody]
@[simp] theorem State.splitBody_c : (s.splitBody bytes).c = s.c := by simp [State.splitBody]
@[simp] theorem State.splitBody_f : (s.splitBody bytes).f = s.f := by simp [State.splitBody]
@[simp] theorem State.splitBody_turns : (s.splitBody bytes).turns = s.turns := by simp [State.splitBody]
@[simp] theorem State.splitBody_reads : (s.splitBody bytes).reads = s.reads := by simp [State.splitBody]
@[simp] theorem State.splitBody_awaiting : (s.splitBody bytes).awaiting = s.awaiting := by simp [State.splitBody]
@[simp] theorem State.splitBody_draws : (s.splitBody bytes).draws = s.draws := by simp [State.splitBody]
@[simp] theorem State.splitBody_ctlen : (s.splitBody bytes).ctlen = BitVec.ofNat 64 (bytes.length - 44) := by simp [State.splitBody]
@[simp] theorem State.splitBody_salt : (s.splitBody bytes).salt = s.salt.write 0 (bytes.take 16) := by simp [State.splitBody]
@[simp] theorem State.splitBody_nonce : (s.splitBody bytes).nonce = s.nonce.write 0 ((bytes.drop 16).take 12) := by simp [State.splitBody]
@[simp] theorem State.splitBody_tag : (s.splitBody bytes).tag = s.tag.write 0 ((bytes.drop 28).take 16) := by simp [State.splitBody]
@[simp] theorem State.splitBody_ct : (s.splitBody bytes).ct = s.ct.write 0 (bytes.drop 44) := by simp [State.splitBody]

/-- Two writes that follow each other are one write. -/
theorem Memory.write_append (m : Memory) (a : Nat) (x y : List Byte) :
    (m.write a x).write (a + x.length) y = m.write a (x ++ y) := by
  have he : Memory.entries a (x ++ y) = Memory.entries a x ++ Memory.entries (a + x.length) y := by
    simp [Memory.entries, List.zipIdx_append]
  have h1 : (Memory.entries a x).filter (fun e => decide (e.1 < a + x.length)) = Memory.entries a x :=
    List.filter_eq_self.mpr (fun e h => by have := (Memory.mem_entries h).2; simpa using this)
  have h2 : (Memory.entries a x).filter (fun e => decide (a + x.length + y.length ≤ e.1)) = [] :=
    List.filter_eq_nil_iff.mpr (fun e h => by have := (Memory.mem_entries h).2; simp; omega)
  have h3 : (m.filter (fun e => decide (e.1 < a))).filter (fun e => decide (e.1 < a + x.length))
      = m.filter (fun e => decide (e.1 < a)) :=
    List.filter_eq_self.mpr (fun e h => by have := (List.mem_filter.mp h).2; simp at this ⊢; omega)
  have h4 : (m.filter (fun e => decide (a + x.length ≤ e.1))).filter (fun e => decide (e.1 < a + x.length)) = [] :=
    List.filter_eq_nil_iff.mpr (fun e h => by have := (List.mem_filter.mp h).2; simp at this ⊢; omega)
  have h5 : (m.filter (fun e => decide (e.1 < a))).filter (fun e => decide (a + x.length + y.length ≤ e.1)) = [] :=
    List.filter_eq_nil_iff.mpr (fun e h => by have := (List.mem_filter.mp h).2; simp at this ⊢; omega)
  have h6 : (m.filter (fun e => decide (a + x.length ≤ e.1))).filter (fun e => decide (a + x.length + y.length ≤ e.1))
      = m.filter (fun e => decide (a + x.length + y.length ≤ e.1)) := by
    rw [List.filter_filter]
    exact List.filter_congr (fun e _ => by
      rw [← Bool.decide_and]; exact decide_eq_decide.mpr ⟨fun h => h.1, fun h => ⟨h, by omega⟩⟩)
  unfold Memory.write
  simp only [List.filter_append, h1, h2, h3, h4, h5, h6, he, List.length_append, List.append_assoc, List.nil_append,
    List.append_nil, ← Nat.add_assoc]

/-- The frame of spec R92 that MARSHAL assembles. -/
def State.frame (s : State) : List Byte :=
  u32be (44 + s.ctlen.toNat) ++ (s.memRead .salt 0 16 ++ (s.memRead .nonce 0 12 ++ (s.memRead .tag 0 16
    ++ s.memRead .ct 0 s.ctlen.toNat)))

theorem State.frame_length : s.frame.length = 48 + s.ctlen.toNat := by
  simp [State.frame]; omega

/-- MARSHAL's five writes are one write of the frame. -/
theorem State.assembleFrame_f : s.assembleFrame.f = s.f.write 0 s.frame := by
  have e := Memory.write_append s.f 0
  simp only [Nat.zero_add] at e
  have e1 : s.assembleFrame.f = ((((s.f.write 0 (u32be (44 + s.ctlen.toNat))).write 4 (s.memRead .salt 0 16)).write 20
      (s.memRead .nonce 0 12)).write 32 (s.memRead .tag 0 16)).write 48 (s.memRead .ct 0 s.ctlen.toNat) := by simp [State.assembleFrame]
  rw [e1, State.frame]
  conv_lhs =>
    rw [show (4 : Nat) = (u32be (44 + s.ctlen.toNat)).length from rfl, e,
      show (20 : Nat) = (u32be (44 + s.ctlen.toNat) ++ s.memRead .salt 0 16).length by simp, e,
      show (32 : Nat) = (u32be (44 + s.ctlen.toNat) ++ s.memRead .salt 0 16 ++ s.memRead .nonce 0 12).length by simp, e,
      show (48 : Nat) = (u32be (44 + s.ctlen.toNat) ++ s.memRead .salt 0 16 ++ s.memRead .nonce 0 12
        ++ s.memRead .tag 0 16).length by simp, e]
  simp only [List.append_assoc]

/-- What each byte of the assembled frame is (spec R92). -/
theorem State.frame_header {j : Nat} (h : j < 4) :
    s.frame[j]? = some (BitVec.ofNat 8 ((44 + s.ctlen.toNat) / 2 ^ (8 * (3 - j)))) := by
  rw [State.frame, List.getElem?_append_left (by simpa using h)]
  match j, h with
  | 0, _ | 1, _ | 2, _ | 3, _ => simp [u32be]

theorem State.frame_salt {j : Nat} (h : j < 16) : s.frame[4 + j]? = some (s.peek .salt j) := by
  rw [State.frame, List.getElem?_append_right (by simp), u32be_length, Nat.add_sub_cancel_left,
    List.getElem?_append_left (by simpa using h), State.memRead_getElem _ _ _ _ _ h, Nat.zero_add]

theorem State.frame_nonce {j : Nat} (h : j < 12) : s.frame[20 + j]? = some (s.peek .nonce j) := by
  rw [State.frame, List.getElem?_append_right (by simp; omega), u32be_length, show 20 + j - 4 = 16 + j by omega,
    List.getElem?_append_right (by simp), State.memRead_length, Nat.add_sub_cancel_left,
    List.getElem?_append_left (by simpa using h), State.memRead_getElem _ _ _ _ _ h, Nat.zero_add]

theorem State.frame_tag {j : Nat} (h : j < 16) : s.frame[32 + j]? = some (s.peek .tag j) := by
  rw [State.frame, List.getElem?_append_right (by simp; omega), u32be_length, show 32 + j - 4 = 28 + j by omega,
    List.getElem?_append_right (by simp; omega), State.memRead_length, show 28 + j - 16 = 12 + j by omega,
    List.getElem?_append_right (by simp), State.memRead_length, Nat.add_sub_cancel_left,
    List.getElem?_append_left (by simpa using h), State.memRead_getElem _ _ _ _ _ h, Nat.zero_add]

theorem State.frame_ct {j : Nat} (h : j < s.ctlen.toNat) : s.frame[48 + j]? = some (s.peek .ct j) := by
  rw [State.frame, List.getElem?_append_right (by simp; omega), u32be_length, show 48 + j - 4 = 44 + j by omega,
    List.getElem?_append_right (by simp; omega), State.memRead_length, show 44 + j - 16 = 28 + j by omega,
    List.getElem?_append_right (by simp; omega), State.memRead_length, show 28 + j - 12 = 16 + j by omega,
    List.getElem?_append_right (by simp), State.memRead_length, Nat.add_sub_cancel_left,
    State.memRead_getElem _ _ _ _ _ h, Nat.zero_add]

/-- Everything MARSHAL's data movement does to F, seen through reads. -/
theorem State.assembleFrame_read (i : Nat) :
    Memory.read s.assembleFrame.f i = if i < 48 + s.ctlen.toNat then s.frame[i]? else Memory.read s.f i := by
  rw [State.assembleFrame_f, Memory.read_write, State.frame_length]
  simp

/-- Every element a successful EMBED leaves: bit 0 from the frame below `8 * n`, nothing changed above (spec R111). -/
theorem State.embedWrite_read (t : State) (n i : Nat) :
    Memory.read (t.lsbWrite (bitsOf (s.memRead .f 0 n))).c i =
      if i < 8 * n then some (withLsb (t.peek .c i) ((s.peek .f (i / 8)).getLsbD (7 - i % 8)))
      else Memory.read t.c i := by
  rw [State.lsbWrite_read, bitsOf_getElem]
  rcases Nat.lt_or_ge i (8 * n) with h | h
  · rw [State.memRead_getElem _ _ _ _ _ (by omega), if_pos h, Nat.zero_add]; rfl
  · rw [List.getElem?_eq_none (by simp; omega), if_neg (by omega)]; rfl

/-- Every byte a successful EXTRACT leaves in F (spec R116). -/
theorem State.extractWrite_read (m : Memory) (a n j : Nat) :
    Memory.read (m.write 0 (s.lsbRead a n)) j =
      if j < n then some (s.lsbByte (a + 8 * j)) else Memory.read m j := by
  rw [Memory.read_write]
  rcases Nat.lt_or_ge j n with h | h
  · rw [if_pos (by simpa using h), if_pos h, Nat.sub_zero, State.lsbRead_getElem _ _ _ _ h]
  · rw [if_neg (by simpa using h), if_neg (by omega)]

/-- What PARSE writes to a field: `n` bytes of the body from byte `d` on (spec R136). -/
theorem State.bodyWrite_read (m : Memory) (p d n j : Nat) :
    Memory.read (m.write 0 (((s.lsbRead 32 p).drop d).take n)) j =
      if j < min n (p - d) then some (s.lsbByte (32 + 8 * d + 8 * j)) else Memory.read m j := by
  rw [State.lsbRead_drop, State.lsbRead_take]
  exact State.extractWrite_read s m _ _ j

/-! The outcomes of each command. -/

variable {s}

theorem execEmbed_resource (h : s.cfg.coverCap.val < s.clen.toNat ∨ s.cfg.frameCap.val < s.flen.toNat) :
    execEmbed s = .next ((s.setCounts 0 0).complete .resource) := by
  simp [execEmbed, h]

theorem execEmbed_capacity (h1 : s.clen.toNat ≤ s.cfg.coverCap.val) (h2 : s.flen.toNat ≤ s.cfg.frameCap.val)
    (h : s.clen.toNat < 8 * s.flen.toNat) :
    execEmbed s = .next ((s.setCounts (8 * s.flen.toNat) s.clen.toNat).complete .capacity) := by
  simp [execEmbed, Nat.not_lt.mpr h1, Nat.not_lt.mpr h2, h]

theorem execEmbed_ok (h1 : s.clen.toNat ≤ s.cfg.coverCap.val) (h2 : s.flen.toNat ≤ s.cfg.frameCap.val)
    (h : 8 * s.flen.toNat ≤ s.clen.toNat) :
    execEmbed s = .next (((s.setCounts (8 * s.flen.toNat) s.clen.toNat).lsbWrite
      (bitsOf (s.memRead .f 0 s.flen.toNat))).complete .ok) := by
  simp only [execEmbed, Nat.not_lt.mpr h1, Nat.not_lt.mpr h2, Nat.not_lt.mpr h, or_self, if_false]
  rfl

theorem execExtract_resource (h : s.cfg.coverCap.val < s.clen.toNat ∨ s.cfg.frameCap.val < s.nbytes.toNat) :
    execExtract s = .next ((s.setCounts 0 0).complete .resource) := by
  simp [execExtract, h]

theorem execExtract_capacity (h1 : s.clen.toNat ≤ s.cfg.coverCap.val) (h2 : s.nbytes.toNat ≤ s.cfg.frameCap.val)
    (h : s.clen.toNat < s.pos.toNat + 8 * s.nbytes.toNat) :
    execExtract s = .next ((s.setCounts (s.pos.toNat + 8 * s.nbytes.toNat) s.clen.toNat).complete .capacity) := by
  simp [execExtract, Nat.not_lt.mpr h1, Nat.not_lt.mpr h2, h]

theorem execExtract_ok (h1 : s.clen.toNat ≤ s.cfg.coverCap.val) (h2 : s.nbytes.toNat ≤ s.cfg.frameCap.val)
    (h : s.pos.toNat + 8 * s.nbytes.toNat ≤ s.clen.toNat) :
    execExtract s = .next ((((s.setCounts (s.pos.toNat + 8 * s.nbytes.toNat) s.clen.toNat).memWrite .f 0
      (s.lsbRead s.pos.toNat s.nbytes.toNat)).setFlen s.nbytes).complete .ok) := by
  simp only [execExtract, Nat.not_lt.mpr h1, Nat.not_lt.mpr h2, Nat.not_lt.mpr h, or_self, if_false]
  rfl

theorem execMarshal_resource (h : s.cfg.ctCap.val < s.ctlen.toNat ∨ s.cfg.frameCap.val < 48 + s.ctlen.toNat) :
    execMarshal s = .next ((s.setCounts 0 0).complete .resource) := by
  simp only [execMarshal, h, if_true]

theorem execMarshal_ok (h1 : s.ctlen.toNat ≤ s.cfg.ctCap.val) (h2 : 48 + s.ctlen.toNat ≤ s.cfg.frameCap.val) :
    execMarshal s = .next ((s.setCounts 0 0).assembleFrame.complete .ok) := by
  simp only [execMarshal, Nat.not_lt.mpr h1, Nat.not_lt.mpr h2, or_self, if_false]

/-- The state of PARSE once it has read the header and recorded the counts (lines 3 and 4 of spec R136). -/
def State.headerRead (s : State) : State :=
  (s.setPlen (BitVec.ofNat 32 s.coverHeader)).setCounts (8 * (s.coverHeader + 4)) s.clen.toNat

theorem execParse_tooLong (h : s.cfg.coverCap.val < s.clen.toNat) :
    execParse s = .next ((s.setCounts 0 0).complete .resource) := by
  simp [execParse, h]

theorem execParse_noHeader (h1 : s.clen.toNat ≤ s.cfg.coverCap.val) (h : s.clen.toNat < 32) :
    execParse s = .next ((s.setCounts 32 s.clen.toNat).complete .capacity) := by
  simp [execParse, Nat.not_lt.mpr h1, h]

theorem execParse_capacity (h1 : s.clen.toNat ≤ s.cfg.coverCap.val) (h2 : 32 ≤ s.clen.toNat)
    (h : s.clen.toNat < 8 * (s.coverHeader + 4)) : execParse s = .next (s.headerRead.complete .capacity) := by
  simp [execParse, Nat.not_lt.mpr h1, Nat.not_lt.mpr h2, h, State.headerRead]

theorem execParse_format (h1 : s.clen.toNat ≤ s.cfg.coverCap.val) (h2 : 8 * (s.coverHeader + 4) ≤ s.clen.toNat)
    (h : s.coverHeader < 44) : execParse s = .next (s.headerRead.complete .format) := by
  have h3 : ¬ s.clen.toNat < 32 := by omega
  simp [execParse, Nat.not_lt.mpr h1, h3, Nat.not_lt.mpr h2, h, State.headerRead]

theorem execParse_tooBig (h1 : s.clen.toNat ≤ s.cfg.coverCap.val) (h2 : 8 * (s.coverHeader + 4) ≤ s.clen.toNat)
    (h : s.cfg.ctCap.val < s.coverHeader - 44) : execParse s = .next (s.headerRead.complete .resource) := by
  have h3 : ¬ s.clen.toNat < 32 := by omega
  have h4 : ¬ s.coverHeader < 44 := by omega
  simp [execParse, Nat.not_lt.mpr h1, h3, Nat.not_lt.mpr h2, h4, h, State.headerRead]

theorem execParse_ok (h1 : s.clen.toNat ≤ s.cfg.coverCap.val) (h2 : 8 * (s.coverHeader + 4) ≤ s.clen.toNat)
    (h3 : 44 ≤ s.coverHeader) (h4 : s.coverHeader - 44 ≤ s.cfg.ctCap.val) :
    execParse s = .next ((s.headerRead.splitBody (s.lsbRead 32 s.coverHeader)).complete .ok) := by
  have h5 : ¬ s.clen.toNat < 32 := by omega
  simp only [execParse, Nat.not_lt.mpr h1, h5, Nat.not_lt.mpr h2, Nat.not_lt.mpr h3, Nat.not_lt.mpr h4, if_false]
  rfl

/-! Every case of each command: what it can answer, with the condition of each answer. -/

theorem execEmbed_cases (s : State) :
    ((s.cfg.coverCap.val < s.clen.toNat ∨ s.cfg.frameCap.val < s.flen.toNat) ∧
      execEmbed s = .next ((s.setCounts 0 0).complete .resource)) ∨
    (s.clen.toNat ≤ s.cfg.coverCap.val ∧ s.flen.toNat ≤ s.cfg.frameCap.val ∧ s.clen.toNat < 8 * s.flen.toNat ∧
      execEmbed s = .next ((s.setCounts (8 * s.flen.toNat) s.clen.toNat).complete .capacity)) ∨
    (s.clen.toNat ≤ s.cfg.coverCap.val ∧ s.flen.toNat ≤ s.cfg.frameCap.val ∧ 8 * s.flen.toNat ≤ s.clen.toNat ∧
      execEmbed s = .next (((s.setCounts (8 * s.flen.toNat) s.clen.toNat).lsbWrite
        (bitsOf (s.memRead .f 0 s.flen.toNat))).complete .ok)) := by
  by_cases h : s.cfg.coverCap.val < s.clen.toNat ∨ s.cfg.frameCap.val < s.flen.toNat
  · exact .inl ⟨h, execEmbed_resource h⟩
  · simp only [not_or, Nat.not_lt] at h
    rcases Nat.lt_or_ge s.clen.toNat (8 * s.flen.toNat) with hc | hc
    · exact .inr (.inl ⟨h.1, h.2, hc, execEmbed_capacity h.1 h.2 hc⟩)
    · exact .inr (.inr ⟨h.1, h.2, hc, execEmbed_ok h.1 h.2 hc⟩)

theorem execExtract_cases (s : State) :
    ((s.cfg.coverCap.val < s.clen.toNat ∨ s.cfg.frameCap.val < s.nbytes.toNat) ∧
      execExtract s = .next ((s.setCounts 0 0).complete .resource)) ∨
    (s.clen.toNat ≤ s.cfg.coverCap.val ∧ s.nbytes.toNat ≤ s.cfg.frameCap.val ∧
      s.clen.toNat < s.pos.toNat + 8 * s.nbytes.toNat ∧
      execExtract s = .next ((s.setCounts (s.pos.toNat + 8 * s.nbytes.toNat) s.clen.toNat).complete .capacity)) ∨
    (s.clen.toNat ≤ s.cfg.coverCap.val ∧ s.nbytes.toNat ≤ s.cfg.frameCap.val ∧
      s.pos.toNat + 8 * s.nbytes.toNat ≤ s.clen.toNat ∧
      execExtract s = .next ((((s.setCounts (s.pos.toNat + 8 * s.nbytes.toNat) s.clen.toNat).memWrite
        .f 0 (s.lsbRead s.pos.toNat s.nbytes.toNat)).setFlen s.nbytes).complete .ok)) := by
  by_cases h : s.cfg.coverCap.val < s.clen.toNat ∨ s.cfg.frameCap.val < s.nbytes.toNat
  · exact .inl ⟨h, execExtract_resource h⟩
  · simp only [not_or, Nat.not_lt] at h
    rcases Nat.lt_or_ge s.clen.toNat (s.pos.toNat + 8 * s.nbytes.toNat) with hc | hc
    · exact .inr (.inl ⟨h.1, h.2, hc, execExtract_capacity h.1 h.2 hc⟩)
    · exact .inr (.inr ⟨h.1, h.2, hc, execExtract_ok h.1 h.2 hc⟩)

theorem execMarshal_cases (s : State) :
    ((s.cfg.ctCap.val < s.ctlen.toNat ∨ s.cfg.frameCap.val < 48 + s.ctlen.toNat) ∧
      execMarshal s = .next ((s.setCounts 0 0).complete .resource)) ∨
    (s.ctlen.toNat ≤ s.cfg.ctCap.val ∧ 48 + s.ctlen.toNat ≤ s.cfg.frameCap.val ∧
      execMarshal s = .next ((s.setCounts 0 0).assembleFrame.complete .ok)) := by
  by_cases h : s.cfg.ctCap.val < s.ctlen.toNat ∨ s.cfg.frameCap.val < 48 + s.ctlen.toNat
  · exact .inl ⟨h, execMarshal_resource h⟩
  · simp only [not_or, Nat.not_lt] at h
    exact .inr ⟨h.1, h.2, execMarshal_ok h.1 h.2⟩

theorem execParse_cases (s : State) :
    (s.cfg.coverCap.val < s.clen.toNat ∧ execParse s = .next ((s.setCounts 0 0).complete .resource)) ∨
    (s.clen.toNat ≤ s.cfg.coverCap.val ∧ s.clen.toNat < 32 ∧
      execParse s = .next ((s.setCounts 32 s.clen.toNat).complete .capacity)) ∨
    (s.clen.toNat ≤ s.cfg.coverCap.val ∧ 32 ≤ s.clen.toNat ∧ s.clen.toNat < 8 * (s.coverHeader + 4) ∧
      execParse s = .next (s.headerRead.complete .capacity)) ∨
    (s.clen.toNat ≤ s.cfg.coverCap.val ∧ 8 * (s.coverHeader + 4) ≤ s.clen.toNat ∧ s.coverHeader < 44 ∧
      execParse s = .next (s.headerRead.complete .format)) ∨
    (s.clen.toNat ≤ s.cfg.coverCap.val ∧ 8 * (s.coverHeader + 4) ≤ s.clen.toNat ∧
      s.cfg.ctCap.val < s.coverHeader - 44 ∧ execParse s = .next (s.headerRead.complete .resource)) ∨
    (s.clen.toNat ≤ s.cfg.coverCap.val ∧ 8 * (s.coverHeader + 4) ≤ s.clen.toNat ∧ 44 ≤ s.coverHeader ∧
      s.coverHeader - 44 ≤ s.cfg.ctCap.val ∧
      execParse s = .next ((s.headerRead.splitBody (s.lsbRead 32 s.coverHeader)).complete .ok)) := by
  rcases Nat.lt_or_ge s.cfg.coverCap.val s.clen.toNat with h1 | h1
  · exact .inl ⟨h1, execParse_tooLong h1⟩
  rcases Nat.lt_or_ge s.clen.toNat 32 with h2 | h2
  · exact .inr (.inl ⟨h1, h2, execParse_noHeader h1 h2⟩)
  rcases Nat.lt_or_ge s.clen.toNat (8 * (s.coverHeader + 4)) with h3 | h3
  · exact .inr (.inr (.inl ⟨h1, h2, h3, execParse_capacity h1 h2 h3⟩))
  rcases Nat.lt_or_ge s.coverHeader 44 with h4 | h4
  · exact .inr (.inr (.inr (.inl ⟨h1, h3, h4, execParse_format h1 h3 h4⟩)))
  rcases Nat.lt_or_ge s.cfg.ctCap.val (s.coverHeader - 44) with h5 | h5
  · exact .inr (.inr (.inr (.inr (.inl ⟨h1, h3, h5, execParse_tooBig h1 h3 h5⟩))))
  · exact .inr (.inr (.inr (.inr (.inr ⟨h1, h3, h4, h5, execParse_ok h1 h3 h4 h5⟩))))

/-! The header as PARSE has recorded it, and the success outcomes seen through reads. -/

theorem State.headerRead_plen (s : State) : s.headerRead.plen.toNat = s.coverHeader := by
  have := s.coverHeader_lt
  simp [State.headerRead]; omega

theorem State.headerRead_req (s : State) : s.headerRead.req.toNat = 8 * (s.coverHeader + 4) := by
  have := s.coverHeader_lt
  simp [State.headerRead]; omega

theorem State.headerRead_avail (s : State) : s.headerRead.avail = s.clen := by simp [State.headerRead]

/-- A required count below 2^64 is recorded without loss (spec R112, R137). -/
theorem requiredCount {n : Nat} (h : n < 2 ^ 64) : (BitVec.ofNat 64 (min n (2 ^ 64 - 1))).toNat = n := by
  simp; omega

theorem eight_flen_lt {s : State} (h : s.flen.toNat ≤ s.cfg.frameCap.val) : 8 * s.flen.toNat < 2 ^ 64 := by
  have := s.cfg.frameCap.isLt
  omega

/-- A successful EMBED, seen through reads (spec R111, R112). -/
theorem execEmbed_success {s : State} (h1 : s.clen.toNat ≤ s.cfg.coverCap.val)
    (h2 : s.flen.toNat ≤ s.cfg.frameCap.val) (h3 : 8 * s.flen.toNat ≤ s.clen.toNat) :
    ∃ t, execEmbed s = .next t ∧ t.status = .done .ok ∧ t.req.toNat = 8 * s.flen.toNat ∧ t.avail = s.clen ∧
      (∀ i, Memory.read t.c i = if i < 8 * s.flen.toNat
        then some (withLsb (s.peek .c i) ((s.peek .f (i / 8)).getLsbD (7 - i % 8))) else Memory.read s.c i) ∧
      ∀ sp, sp ≠ .c → t.mem sp = s.mem sp := by
  refine ⟨_, execEmbed_ok h1 h2 h3, rfl, requiredCount (eight_flen_lt h2), by simp, fun i => ?_, fun sp hsp => ?_⟩
  · exact State.embedWrite_read s (s.setCounts (8 * s.flen.toNat) s.clen.toNat) s.flen.toNat i
  · cases sp <;> simp at hsp ⊢

/-- A successful EXTRACT, seen through reads (spec R116, R117). -/
theorem execExtract_success {s : State} (h1 : s.clen.toNat ≤ s.cfg.coverCap.val)
    (h2 : s.nbytes.toNat ≤ s.cfg.frameCap.val) (h3 : s.pos.toNat + 8 * s.nbytes.toNat ≤ s.clen.toNat) :
    ∃ t, execExtract s = .next t ∧ t.status = .done .ok ∧ t.req.toNat = s.pos.toNat + 8 * s.nbytes.toNat ∧
      t.avail = s.clen ∧ t.flen = s.nbytes ∧
      (∀ j, Memory.read t.f j = if j < s.nbytes.toNat then some (s.lsbByte (s.pos.toNat + 8 * j))
        else Memory.read s.f j) ∧
      ∀ sp, sp ≠ .f → t.mem sp = s.mem sp := by
  have := s.cfg.coverCap.isLt
  refine ⟨_, execExtract_ok h1 h2 h3, rfl, requiredCount (by omega), by simp, rfl, fun j => ?_, fun sp hsp => ?_⟩
  · exact State.extractWrite_read s s.f s.pos.toNat s.nbytes.toNat j
  · cases sp
    case f => exact absurd rfl hsp
    all_goals rfl

/-- A successful MARSHAL, seen through reads (spec R131). -/
theorem execMarshal_success {s : State} (h1 : s.ctlen.toNat ≤ s.cfg.ctCap.val)
    (h2 : 48 + s.ctlen.toNat ≤ s.cfg.frameCap.val) :
    ∃ t, execMarshal s = .next t ∧ t.status = .done .ok ∧ t.req = 0#64 ∧ t.avail = 0#64 ∧
      t.flen = BitVec.ofNat 64 (48 + s.ctlen.toNat) ∧
      (∀ i, Memory.read t.f i = if i < 48 + s.ctlen.toNat then s.frame[i]? else Memory.read s.f i) ∧
      ∀ sp, sp ≠ .f → t.mem sp = s.mem sp := by
  refine ⟨_, execMarshal_ok h1 h2, by simp, by simp, by simp, by simp, fun i => ?_, fun sp hsp => ?_⟩
  · exact State.assembleFrame_read (s.setCounts 0 0) i
  · cases sp <;> simp at hsp ⊢

/-- The fields a successful PARSE leaves, seen through reads (spec R136). -/
theorem State.splitBody_fields (s : State) (h : 44 ≤ s.coverHeader) :
    (∀ j, Memory.read (s.headerRead.splitBody (s.lsbRead 32 s.coverHeader)).salt j =
      if j < 16 then some (s.lsbByte (32 + 8 * j)) else Memory.read s.salt j) ∧
    (∀ j, Memory.read (s.headerRead.splitBody (s.lsbRead 32 s.coverHeader)).nonce j =
      if j < 12 then some (s.lsbByte (160 + 8 * j)) else Memory.read s.nonce j) ∧
    (∀ j, Memory.read (s.headerRead.splitBody (s.lsbRead 32 s.coverHeader)).tag j =
      if j < 16 then some (s.lsbByte (256 + 8 * j)) else Memory.read s.tag j) ∧
    ∀ j, Memory.read (s.headerRead.splitBody (s.lsbRead 32 s.coverHeader)).ct j =
      if j < s.coverHeader - 44 then some (s.lsbByte (384 + 8 * j)) else Memory.read s.ct j := by
  refine ⟨fun j => ?_, fun j => ?_, fun j => ?_, fun j => ?_⟩
  · have := State.bodyWrite_read s s.salt s.coverHeader 0 16 j
    rw [show min 16 (s.coverHeader - 0) = 16 by omega, List.drop_zero] at this
    simpa [State.headerRead] using this
  · have := State.bodyWrite_read s s.nonce s.coverHeader 16 12 j
    rw [show min 12 (s.coverHeader - 16) = 12 by omega] at this
    simpa [State.headerRead] using this
  · have := State.bodyWrite_read s s.tag s.coverHeader 28 16 j
    rw [show min 16 (s.coverHeader - 28) = 16 by omega] at this
    simpa [State.headerRead] using this
  · have := State.bodyWrite_read s s.ct s.coverHeader 44 (s.coverHeader - 44) j
    rw [show min (s.coverHeader - 44) (s.coverHeader - 44) = s.coverHeader - 44 by omega,
      List.take_of_length_le (by simp)] at this
    simpa [State.headerRead] using this

end Sys2Proof.Machine
end

