-- ==== Sys2Proof/Laws/PerInstr.lean ====
section
/-! SUPPORT. Statements made once per command: the word of every command is one byte, one of the four codes. -/

namespace Sys2Proof.Laws.OneByteWord

/-- A command is one byte long and its byte is a command code (spec R90, R91). -/
def Statement (i : Instr) : Prop :=
  (encode i).length = 1 ∧ wordWellFormed (encode i) = true

theorem embed : Statement .embed := ⟨rfl, rfl⟩

theorem extract : Statement .extract := ⟨rfl, rfl⟩

theorem marshal : Statement .marshal := ⟨rfl, rfl⟩

theorem parse : Statement .parse := ⟨rfl, rfl⟩

end Sys2Proof.Laws.OneByteWord
end

