-- ==== Sys2Proof/Laws/Steps.lean ====
section
/-! SUPPORT. What decoding, completing and each turn can do, said once. -/

namespace Sys2Proof.Machine

/-- The byte of each command, and no other, decodes to it (spec R91). -/
theorem decode_single (b : Byte) :
    decode [b] = if b = 1#8 then .ok (.embed, []) else if b = 2#8 then .ok (.extract, [])
      else if b = 3#8 then .ok (.marshal, []) else if b = 4#8 then .ok (.parse, [])
      else .error (.illegalCode b) := by
  revert b; decide

theorem decode_ok {b : Byte} {i : Instr} {rest : List Byte} (h : decode [b] = .ok (i, rest)) :
    rest = [] ∧ encode i = [b] := by
  rw [decode_single] at h
  split at h
  · cases h; subst_vars; decide
  · split at h
    · cases h; subst_vars; decide
    · split at h
      · cases h; subst_vars; decide
      · split at h
        · cases h; subst_vars; decide
        · cases h

/-- A number written to CMD is illegal exactly when its low byte is none of 1 to 4 (spec R100). -/
theorem decode_illegal {b : Byte} (h : b = 0#8 ∨ 4 < b.toNat) : decode [b] = .error (.illegalCode b) := by
  revert b; decide

theorem completeInFlight_legal {s : State} {i : Instr} {rest : List Byte} (h : decode [s.cmd] = .ok (i, rest)) :
    completeInFlight s = exec i s := by
  simp [completeInFlight, h]

theorem completeInFlight_illegal {s : State} {e : DecodeError} (h : decode [s.cmd] = .error e) :
    completeInFlight s = .next s.completeIllegal := by
  simp [completeInFlight, h]

/-- A completion is that of one of the four commands or of an illegal byte (spec R105). -/
theorem completeInFlight_cases (s : State) :
    (∃ i, decode [s.cmd] = .ok (i, []) ∧ completeInFlight s = exec i s) ∨
    ((∃ e, decode [s.cmd] = .error e) ∧ completeInFlight s = .next s.completeIllegal) := by
  cases h : decode [s.cmd] with
  | ok p =>
    obtain ⟨i, rest⟩ := p
    obtain ⟨rfl, -⟩ := decode_ok h
    exact .inl ⟨i, rfl, completeInFlight_legal h⟩
  | error e => exact .inr ⟨⟨e, rfl⟩, completeInFlight_illegal h⟩

/-- What holds of the state after any command's completion: it is done, the operands are kept, and each
space is at least as written as before. -/
theorem exec_next (i : Instr) (s : State) : ∃ t e, exec i s = .next t ∧ t.status = .done e ∧
    t.draws = s.draws + 1 ∧ t.cfg = s.cfg ∧ t.cmd = s.cmd ∧ t.clen = s.clen ∧ t.pos = s.pos ∧ t.nbytes = s.nbytes ∧
    t.turns = s.turns ∧ t.reads = s.reads ∧ t.awaiting = s.awaiting := by
  cases i
  · rcases execEmbed_cases s with ⟨-, h⟩ | ⟨-, -, -, h⟩ | ⟨-, -, -, h⟩ <;>
      exact ⟨_, _, h, rfl, by simp⟩
  · rcases execExtract_cases s with ⟨-, h⟩ | ⟨-, -, -, h⟩ | ⟨-, -, -, h⟩ <;>
      exact ⟨_, _, h, rfl, by simp⟩
  · rcases execMarshal_cases s with ⟨-, h⟩ | ⟨-, -, h⟩ <;>
      exact ⟨_, _, h, rfl, by simp⟩
  · rcases execParse_cases s with ⟨-, h⟩ | ⟨-, -, h⟩ | ⟨-, -, -, h⟩ | ⟨-, -, -, h⟩ | ⟨-, -, -, h⟩ |
      ⟨-, -, -, -, h⟩ <;> exact ⟨_, _, h, rfl, by simp [State.headerRead]⟩

theorem completeInFlight_next (s : State) : ∃ t e, completeInFlight s = .next t ∧ t.status = .done e ∧
    t.draws = s.draws + 1 ∧ t.cfg = s.cfg ∧ t.cmd = s.cmd ∧ t.clen = s.clen ∧ t.pos = s.pos ∧ t.nbytes = s.nbytes ∧
    t.turns = s.turns ∧ t.reads = s.reads ∧ t.awaiting = s.awaiting := by
  rcases completeInFlight_cases s with ⟨i, -, h⟩ | ⟨-, h⟩
  · rw [h]; exact exec_next i s
  · exact ⟨_, .illegal, h, by simp [State.completeIllegal]⟩

/-- A write never forgets a byte. -/
theorem Memory.read_write_none {m : Memory} {a : Nat} {bytes : List Byte} {i : Nat}
    (h : Memory.read (m.write a bytes) i = none) : Memory.read m i = none := by
  rw [Memory.read_write] at h
  split at h
  · rename_i hr; rw [List.getElem?_eq_none_iff] at h; omega
  · exact h

/-- A command never forgets a byte. -/
theorem exec_read_none {i : Instr} {s t : State} (h : exec i s = .next t) (sp : Space) (a : Nat)
    (hn : Memory.read (t.mem sp) a = none) : Memory.read (s.mem sp) a = none := by
  cases i
  · rcases execEmbed_cases s with ⟨-, e⟩ | ⟨-, -, -, e⟩ | ⟨-, -, -, e⟩ <;>
      (rw [exec, e] at h; cases h)
    · simpa using hn
    · simpa using hn
    · cases sp
      case c => exact Memory.read_write_none (by simpa [State.lsbWrite] using hn)
      all_goals simpa using hn
  · rcases execExtract_cases s with ⟨-, e⟩ | ⟨-, -, -, e⟩ | ⟨-, -, -, e⟩ <;>
      (rw [exec, e] at h; cases h)
    · simpa using hn
    · simpa using hn
    · cases sp
      case f => exact Memory.read_write_none (by simpa using hn)
      all_goals simpa using hn
  · rcases execMarshal_cases s with ⟨-, e⟩ | ⟨-, -, e⟩ <;> (rw [exec, e] at h; cases h)
    · simpa using hn
    · cases sp
      case f => exact Memory.read_write_none (by simpa [State.assembleFrame_f] using hn)
      all_goals simpa using hn
  · rcases execParse_cases s with ⟨-, e⟩ | ⟨-, -, e⟩ | ⟨-, -, -, e⟩ | ⟨-, -, -, e⟩ | ⟨-, -, -, e⟩ | ⟨-, -, -, -, e⟩ <;>
      (rw [exec, e] at h; cases h)
    · simpa using hn
    · simpa using hn
    · cases sp <;> simpa [State.headerRead] using hn
    · cases sp <;> simpa [State.headerRead] using hn
    · cases sp <;> simpa [State.headerRead] using hn
    · cases sp
      case c => simpa [State.headerRead] using hn
      case f => simpa [State.headerRead] using hn
      all_goals exact Memory.read_write_none (by simpa [State.headerRead] using hn)

/-- How a step is taken from the head of the list of turns. -/
theorem step_cons {s : State} {t : Turn} {ts : List Turn} (h : s.turns = t :: ts) :
    step s = runTurn t { s with turns := ts } := by
  simp [step, advance, h]

theorem step_nil {s : State} (h : s.turns = []) : step s = engineTurn s := by
  simp [step, advance, h]

/-- Updating a field to the value it has. -/
theorem State.with_turns {s : State} {ts : List Turn} (h : s.turns = ts) : { s with turns := ts } = s := by
  subst h; rfl

end Sys2Proof.Machine
end

