-- ==== Sys2Proof/Laws/Turns.lean ====
section
/-! SUPPORT. What each turn can do, and all that one step can be. -/

namespace Sys2Proof.Machine

theorem Space.ofNumber_number (sp : Space) : Space.ofNumber sp.number = some sp := by cases sp <;> rfl

theorem Space.ofNumber_some {n : Nat} {sp : Space} (h : Space.ofNumber n = some sp) : n = sp.number := by
  unfold Space.ofNumber at h
  split at h <;> cases h <;> rfl

theorem State.unlocked {s : State} (h : s.locked = false) : s.awaiting = false ∧ s.status ≠ .busy := by
  unfold State.locked at h
  simp only [Bool.or_eq_false_iff] at h
  refine ⟨h.1, fun hb => ?_⟩
  rw [hb] at h
  exact absurd h.2 (by decide)

/-- A buffer write is a write of one byte below the capacity, or nothing (spec R70). -/
theorem State.writeByte_cases (s : State) (n k : Nat) (v : Byte) :
    s.writeByte n k v = s ∨
      ∃ sp, n = sp.number ∧ k < Config.capacity s.cfg sp ∧ s.writeByte n k v = s.memWrite sp k [v] := by
  unfold State.writeByte State.locate
  cases hn : Space.ofNumber n with
  | none => exact .inl rfl
  | some sp =>
    by_cases hk : k < Config.capacity s.cfg sp
    · exact .inr ⟨sp, Space.ofNumber_some hn, hk, by simp [hk]⟩
    · exact .inl (by simp [hk])

/-- A register write is an issue, an update of one of five registers, or nothing (spec R33, R104). -/
theorem State.writeReg_cases (s : State) (n v : Nat) :
    (n = 0 ∧ s.writeReg n v = s.issue (BitVec.ofNat 8 v)) ∨
    (n = 2 ∧ ∃ x, s.writeReg n v = { s with clen := x }) ∨
    (n = 3 ∧ ∃ x, s.writeReg n v = { s with flen := x }) ∨
    (n = 4 ∧ ∃ x, s.writeReg n v = { s with ctlen := x }) ∨
    (n = 5 ∧ ∃ x, s.writeReg n v = { s with pos := x }) ∨
    (n = 6 ∧ ∃ x, s.writeReg n v = { s with nbytes := x }) ∨
    s.writeReg n v = s := by
  unfold State.writeReg
  split
  · exact .inl ⟨rfl, rfl⟩
  · exact .inr (.inl ⟨rfl, _, rfl⟩)
  · exact .inr (.inr (.inl ⟨rfl, _, rfl⟩))
  · exact .inr (.inr (.inr (.inl ⟨rfl, _, rfl⟩)))
  · exact .inr (.inr (.inr (.inr (.inl ⟨rfl, _, rfl⟩))))
  · exact .inr (.inr (.inr (.inr (.inr (.inl ⟨rfl, _, rfl⟩)))))
  · exact .inr (.inr (.inr (.inr (.inr (.inr rfl)))))

theorem State.stopOnError_cases (s : State) :
    s.stopOnError = s ∨ s.stopOnError = { s with turns := s.turns.filter (fun t => !t.ofHost) } := by
  unfold State.stopOnError
  split
  · exact .inl rfl
  · split
    · exact .inl rfl
    · exact .inr rfl

/-- A warm reset resets the registers of the state, or of the state with its spaces part-written (spec R181, R182). -/
theorem State.warmReset_cases (s : State) :
    (s.status ≠ .busy ∧ s.warmReset = s.resetRegisters) ∨
    (s.status = .busy ∧ ∃ t, completeInFlight s = .next t ∧ s.warmReset = (s.cutSpaces t).resetRegisters) := by
  unfold State.warmReset
  by_cases hb : s.status = .busy
  · obtain ⟨t, -, h, -⟩ := completeInFlight_next s
    exact .inr ⟨hb, t, h, by rw [if_pos hb, h]⟩
  · exact .inl ⟨hb, if_neg hb⟩

/-- Everything a step that goes on can be: a completion, one of the host's accesses or script turns, an idle engine's
turn, or a reset. -/
theorem step_cases {s t : State} (h : step s = .next t) :
    (∃ s0, s.status = .busy ∧ completeInFlight s0 = .next t ∧ s0 = { s with turns := s0.turns }) ∨
    (∃ ts, s.turns = .host (.readReg 1) :: ts ∧ t = State.readStatus { s with turns := ts }) ∨
    (∃ n ts, s.turns = .host (.readReg n) :: ts ∧ s.locked = false ∧
      t = State.noteRead { s with turns := ts } (s.regValue n)) ∨
    (∃ n v ts, s.turns = .host (.writeReg n v) :: ts ∧ s.locked = false ∧
      t = State.writeReg { s with turns := ts } n v) ∨
    (∃ n k ts, s.turns = .host (.readByte n k) :: ts ∧ s.locked = false ∧
      ∃ w, t = { State.noteRead { s with turns := ts } w with draws := s.draws + 1 }) ∨
    (∃ n k v ts, s.turns = .host (.writeByte n k v) :: ts ∧ s.locked = false ∧
      t = State.writeByte { s with turns := ts } n k v) ∨
    (∃ ts, s.status ≠ .busy ∧ t = { s with turns := ts }) ∨
    (∃ ts, s.turns = .stopOnError :: ts ∧ t = State.stopOnError { s with turns := ts }) ∨
    (∃ ts, s.turns.head? = some .wait ∧ s.status ≠ .busy ∧ t = { s.readStatus with turns := ts }) ∨
    (∃ ts, s.turns = .warmReset :: ts ∧ t = State.warmReset { s with turns := ts }) ∨
    (∃ ts, s.turns = .powerOnReset :: ts ∧ t = State.powerOnReset { s with turns := ts }) := by
  cases hts : s.turns with
  | nil =>
    rw [step_nil hts, engineTurn] at h
    split at h
    · rename_i hb; exact .inl ⟨s, hb, h, rfl⟩
    · rename_i hb; cases h
      exact .inr (.inr (.inr (.inr (.inr (.inr (.inl ⟨[], hb, by rw [State.with_turns hts]⟩))))))
  | cons turn ts =>
    rw [step_cons hts] at h
    cases turn with
    | host a =>
      simp only [runTurn] at h; unfold hostAccess at h
      split at h
      · rename_i ha; cases h; subst ha; exact .inr (.inl ⟨ts, rfl, rfl⟩)
      · split at h
        · cases h
        · rename_i hl
          have hl' : s.locked = false := Bool.eq_false_iff.mpr hl
          cases a with
          | readReg n => cases h; exact .inr (.inr (.inl ⟨n, ts, rfl, hl', rfl⟩))
          | writeReg n v => cases h; exact .inr (.inr (.inr (.inl ⟨n, v, ts, rfl, hl', rfl⟩)))
          | readByte n k => cases h; exact .inr (.inr (.inr (.inr (.inl ⟨n, k, ts, rfl, hl', _, rfl⟩))))
          | writeByte n k v =>
            cases h; exact .inr (.inr (.inr (.inr (.inr (.inl ⟨n, k, v, ts, rfl, hl', rfl⟩)))))
    | wait =>
      simp only [runTurn, waitTurn] at h
      split at h
      · rename_i hb; exact .inl ⟨_, hb, h, rfl⟩
      · rename_i e he
        cases h
        exact .inr (.inr (.inr (.inr (.inr (.inr (.inr (.inr (.inl ⟨ts, rfl, by simp [he], rfl⟩))))))))
      · rename_i he
        cases h
        exact .inr (.inr (.inr (.inr (.inr (.inr (.inr (.inr (.inl ⟨_, rfl, by simp [he], rfl⟩))))))))
    | stopOnError => cases h; exact .inr (.inr (.inr (.inr (.inr (.inr (.inr (.inl ⟨ts, rfl, rfl⟩)))))))
    | engine =>
      rw [runTurn, engineTurn] at h
      split at h
      · rename_i hb; exact .inl ⟨_, hb, h, rfl⟩
      · rename_i hb; cases h
        exact .inr (.inr (.inr (.inr (.inr (.inr (.inl ⟨ts, hb, rfl⟩))))))
    | warmReset =>
      cases h; exact .inr (.inr (.inr (.inr (.inr (.inr (.inr (.inr (.inr (.inl ⟨ts, rfl, rfl⟩)))))))))
    | powerOnReset =>
      cases h; exact .inr (.inr (.inr (.inr (.inr (.inr (.inr (.inr (.inr (.inr ⟨ts, rfl, rfl⟩)))))))))

/-- A run of several steps begins with the first. -/
theorem run_succ {s t : State} (n : Nat) (h : step s = .next t) :
    Sys2Proof.core.run (n + 1) s = Sys2Proof.core.run n t := by
  have h' : Sys2Proof.core.step s = .next t := h
  simp only [Host.Core.run, h']

end Sys2Proof.Machine
end

