-- ==== Sys2Proof/Laws/Spaces.lean ====
section
/-! SUPPORT. Every operation on the spaces keeps them canonical and within their capacities. -/

namespace Sys2Proof.Machine

theorem State.SpacesOk.of_eq {s t : State} (h : s.SpacesOk) (e : ∀ sp, t.mem sp = s.mem sp) (c : t.cfg = s.cfg) :
    t.SpacesOk := by
  intro sp
  rw [e, c]
  exact h sp

/-- The spaces after reset: nothing is listed (spec R44). -/
theorem State.resetWith_spaces (cfg : Config) : (State.resetWith cfg).SpacesOk := by
  intro sp
  cases sp <;> exact ⟨List.Pairwise.nil, fun e he => nomatch he⟩

theorem State.reset_mem_wf (sp : Space) : (State.reset.mem sp).wf := (State.resetWith_spaces _ sp).1

/-- A write within the capacity of its space (spec R13). -/
theorem State.SpacesOk.memWrite {s : State} (h : s.SpacesOk) {sp : Space} {a : Nat} {bytes : List Byte}
    (hb : a + bytes.length ≤ Config.capacity s.cfg sp) : (s.memWrite sp a bytes).SpacesOk := by
  intro sq
  rw [State.mem_memWrite, State.memWrite_cfg]
  split
  · rename_i hq; subst hq
    exact ⟨Memory.wf_write (h _).1 _ _, Memory.bound_write (h _).2 (.inr hb)⟩
  · exact h sq

/-- Every command keeps the spaces (spec R60, R112, R117, R132, R137). -/
theorem exec_spaces {i : Instr} {s t : State} (hs : s.SpacesOk) (h : exec i s = .next t) : t.SpacesOk := by
  cases i
  · rcases execEmbed_cases s with ⟨-, e⟩ | ⟨-, -, -, e⟩ | ⟨h1, -, h3, e⟩ <;> (rw [exec, e] at h; cases h)
    · exact hs.of_eq (fun sp => by simp) (by simp)
    · exact hs.of_eq (fun sp => by simp) (by simp)
    · have h0 : (s.setCounts (8 * s.flen.toNat) s.clen.toNat).SpacesOk := hs.of_eq (fun sp => by simp) (by simp)
      have hw : ((s.setCounts (8 * s.flen.toNat) s.clen.toNat).lsbWrite
          (bitsOf (s.memRead .f 0 s.flen.toNat))).SpacesOk :=
        h0.memWrite (by simp [Config.capacity]; omega)
      exact hw.of_eq (fun sp => by simp) (by simp)
  · rcases execExtract_cases s with ⟨-, e⟩ | ⟨-, -, -, e⟩ | ⟨-, h2, -, e⟩ <;> (rw [exec, e] at h; cases h)
    · exact hs.of_eq (fun sp => by simp) (by simp)
    · exact hs.of_eq (fun sp => by simp) (by simp)
    · have h0 : (s.setCounts (s.pos.toNat + 8 * s.nbytes.toNat) s.clen.toNat).SpacesOk :=
        hs.of_eq (fun sp => by simp) (by simp)
      have hw := h0.memWrite (sp := .f) (a := 0) (bytes := s.lsbRead s.pos.toNat s.nbytes.toNat)
        (by simp [Config.capacity]; omega)
      exact hw.of_eq (fun sp => by cases sp <;> rfl) rfl
  · rcases execMarshal_cases s with ⟨-, e⟩ | ⟨-, h2, e⟩ <;> (rw [exec, e] at h; cases h)
    · exact hs.of_eq (fun sp => by simp) (by simp)
    · have hw := hs.memWrite (sp := .f) (a := 0) (bytes := s.frame)
        (by rw [State.frame_length]; simp [Config.capacity]; omega)
      refine hw.of_eq (fun sp => ?_) (by simp)
      cases sp
      case f => exact State.assembleFrame_f (s.setCounts 0 0)
      all_goals simp
  · rcases execParse_cases s with ⟨-, e⟩ | ⟨-, -, e⟩ | ⟨-, -, -, e⟩ | ⟨-, -, -, e⟩ | ⟨-, -, -, e⟩ |
      ⟨-, -, -, h4, e⟩ <;> (rw [exec, e] at h; cases h)
    · exact hs.of_eq (fun sp => by simp) (by simp)
    · exact hs.of_eq (fun sp => by simp) (by simp)
    · exact hs.of_eq (fun sp => by simp [State.headerRead]) (by simp [State.headerRead])
    · exact hs.of_eq (fun sp => by simp [State.headerRead]) (by simp [State.headerRead])
    · exact hs.of_eq (fun sp => by simp [State.headerRead]) (by simp [State.headerRead])
    · have h0 : s.headerRead.SpacesOk := hs.of_eq (fun sp => by simp [State.headerRead]) (by simp [State.headerRead])
      have w1 := h0.memWrite (sp := .salt) (a := 0) (bytes := (s.lsbRead 32 s.coverHeader).take 16)
        (by simp [Config.capacity])
      have w2 := w1.memWrite (sp := .nonce) (a := 0) (bytes := ((s.lsbRead 32 s.coverHeader).drop 16).take 12)
        (by simp [Config.capacity])
      have w3 := w2.memWrite (sp := .tag) (a := 0) (bytes := ((s.lsbRead 32 s.coverHeader).drop 28).take 16)
        (by simp [Config.capacity])
      have w4 := w3.memWrite (sp := .ct) (a := 0) (bytes := (s.lsbRead 32 s.coverHeader).drop 44)
        (by simp [Config.capacity, State.headerRead]; try omega)
      exact w4

theorem completeInFlight_spaces {s t : State} (hs : s.SpacesOk) (h : completeInFlight s = .next t) :
    t.SpacesOk := by
  rcases completeInFlight_cases s with ⟨i, -, e⟩ | ⟨-, e⟩
  · rw [e] at h; exact exec_spaces hs h
  · rw [e] at h; cases h
    exact hs.of_eq (fun sp => by simp [State.completeIllegal]) (by simp [State.completeIllegal])

/-- Spaces left part-written by a reset (spec R182). -/
theorem State.SpacesOk.cutSpaces {s t : State} (ht : t.SpacesOk) (hc : t.cfg = s.cfg) : (s.cutSpaces t).SpacesOk := by
  intro sp
  have key : ∀ (landed : Nat → Bool) (old : Memory),
      (Memory.cutShort landed old (t.mem sp)).wf ∧
        ∀ e ∈ Memory.cutShort landed old (t.mem sp), e.1 < Config.capacity s.cfg sp := by
    intro landed old
    refine ⟨Memory.wf_cutShort (ht sp).1, fun e he => ?_⟩
    obtain ⟨v, hv⟩ := Memory.mem_cutShort he
    have := (ht sp).2 _ hv
    rwa [hc] at this
  cases sp <;> exact key _ _

end Sys2Proof.Machine
end

