-- ==== Sys2Proof/Tests/Slice0.lean ====
section
/-! SUPPORT. Small tests whose expected results are those of spec/95_test_vectors.md or of the rules named, and for every
obligation with hypotheses a state that meets them, each clause at a boundary. -/

namespace Sys2Proof.Tests

open Sys2Proof.Machine

/-- The state a result goes on in. -/
def after : Result → State
  | .next t => t
  | _ => State.reset

theorem exec_after (i : Instr) (s : State) : exec i s = .next (after (exec i s)) := by
  obtain ⟨t, -, h, -⟩ := exec_next i s
  rw [h]; rfl

theorem after_cfg (i : Instr) (s : State) : (after (exec i s)).cfg = s.cfg := by
  obtain ⟨t, -, h, -, -, hc, -⟩ := exec_next i s
  rw [h]; exact hc

/-- The bytes of a memory from index 0 on. -/
def bytes (l : List Byte) : Memory := Memory.entries 0 l

/-! ## Well-formedness: each check refuses an ill-formed term -/

/-- Every command is well formed, since it has no operand (spec R90). -/
theorem test_wellFormed_instr : ∀ i : Instr, i.wellFormed = true := fun _ => rfl

theorem test_wellFormed_word_refuses_code : wordWellFormed [0x00#8] = false ∧ wordWellFormed [0x05#8] = false := by decide

theorem test_wellFormed_word_refuses_length : wordWellFormed [] = false ∧ wordWellFormed [0x01#8, 0x01#8] = false := by
  decide

/-- 47 bytes cannot hold the fixed fields, whatever the Header says (spec R94). -/
theorem test_wellFormed_frame_refuses_short :
    frameWellFormed ([0x00#8, 0x00#8, 0x00#8, 0x2B#8] ++ List.replicate 43 0#8) = false := by decide

/-- A Header that does not count the rest (spec R93). -/
theorem test_wellFormed_frame_refuses_header :
    frameWellFormed ([0x00#8, 0x00#8, 0x00#8, 0x2D#8] ++ List.replicate 44 0#8) = false ∧
    frameWellFormed ([0x00#8, 0x00#8, 0x00#8, 0x2C#8] ++ List.replicate 44 0#8) = true := by decide

/-! ## Decoding: words written out from spec/opcode_table.json (spec R91) -/

theorem test_decode_embed : decode [0b00000001#8] = .ok (.embed, []) := by decide
theorem test_decode_extract : decode [0b00000010#8] = .ok (.extract, []) := by decide
theorem test_decode_marshal : decode [0b00000011#8] = .ok (.marshal, []) := by decide
theorem test_decode_parse : decode [0b00000100#8] = .ok (.parse, []) := by decide

/-- Vectors I1 to I4: the whole byte is compared (spec R90, R100). -/
theorem test_decode_illegal :
    decode [0x00#8] = .error (.illegalCode 0x00#8) ∧ decode [0x05#8] = .error (.illegalCode 0x05#8) ∧
    decode [0xFF#8] = .error (.illegalCode 0xFF#8) ∧ decode [0x81#8] = .error (.illegalCode 0x81#8) ∧
    decode [] = .error .noByte := by decide

/-- A table word runs as the next step. -/
theorem test_withFetchWord_runs :
    decodeTableWord 8 4 = some .parse ∧
      step (State.reset.withFetchWord 8 4) = exec .parse (State.reset.issue 4#8) := by
  refine ⟨by decide, ?_⟩
  rw [step_cons (t := .engine) (ts := []) rfl, runTurn, engineTurn]
  exact (if_pos rfl).trans (completeInFlight_legal (s := State.reset.issue 4#8) (rest := []) (by decide))

/-! ## Vectors B1 to B8 -/

theorem test_vectors_bits :
    bitsOf [0xA5#8] = [true, false, true, false, false, true, false, true] ∧
    bytesOf [true, false, true, false, false, true, false, true, false, true, false, false, false, false, true, true]
      = some [0xA5#8, 0x43#8] ∧
    bytesOf [true, false, true, false, false, true, false] = none := by decide

theorem test_vectors_header :
    u32be 46 = [0x00#8, 0x00#8, 0x00#8, 0x2E#8] ∧ u32be 4294967295 = [0xFF#8, 0xFF#8, 0xFF#8, 0xFF#8] ∧
    be32 [0x00#8, 0x00#8, 0x01#8, 0x00#8] = 256 ∧ be32 [0x80#8, 0x00#8, 0x00#8, 0x2E#8] = 2147483694 := by decide

/-! ## EMBED -/

/-- A frame `f` and a cover of `n` elements with the values from `b` on. -/
def embedState (f : List Byte) (n b : Nat) : State :=
  { State.reset with
    f := bytes f, flen := BitVec.ofNat 64 f.length, clen := BitVec.ofNat 64 n,
    c := bytes ((List.range n).map (fun k => BitVec.ofNat 8 (b + k))) }

/-- Vector E2. -/
theorem test_embed_E2 :
    let t := after (exec .embed (embedState [0xA5#8] 10 0))
    t.c = bytes [0x01#8, 0x00#8, 0x03#8, 0x02#8, 0x04#8, 0x05#8, 0x06#8, 0x07#8, 0x08#8, 0x09#8] ∧
      t.req = 8#64 ∧ t.avail = 10#64 ∧ t.status.byte = 0x02#8 := by decide +kernel

/-- Vector E5. -/
theorem test_embed_E5 :
    let s := embedState [0x3C#8, 0x81#8] 15 0x10
    let t := after (exec .embed s)
    t.c = s.c ∧ t.req = 16#64 ∧ t.avail = 15#64 ∧ t.status.byte = 0x06#8 := by decide +kernel

/-! ## EXTRACT -/

/-- The common start state of vectors X1 to X8. -/
def extractState (pos nbytes : Nat) : State :=
  { State.reset with
    clen := 17#64, pos := BitVec.ofNat 64 pos, nbytes := BitVec.ofNat 64 nbytes, flen := 9#64,
    c := bytes [0x01#8, 0x00#8, 0x03#8, 0x02#8, 0x04#8, 0x07#8, 0x06#8, 0x09#8, 0xFE#8, 0xFF#8, 0xFE#8, 0xFE#8,
      0xFE#8, 0xFE#8, 0xFF#8, 0xFF#8, 0x55#8] }

/-- Vector X3: an unaligned start. -/
theorem test_extract_X3 :
    let t := after (exec .extract (extractState 1 2))
    t.f = bytes [0x4A#8, 0x87#8] ∧ t.flen = 2#64 ∧ t.req = 17#64 ∧ t.avail = 17#64 ∧ t.status.byte = 0x02#8 := by
  decide +kernel

/-- Vector X7: the required count saturates and does not wrap. -/
theorem test_extract_X7 :
    let t := after (exec .extract (extractState 18446744073709551608 1))
    t.f = [] ∧ t.flen = 9#64 ∧ t.req = 18446744073709551615#64 ∧ t.avail = 17#64 ∧ t.status.byte = 0x06#8 := by
  decide +kernel

/-! ## MARSHAL -/

/-- The standard fields of spec/95_test_vectors.md, with the CTLEN given. -/
def fieldState (ctlen : Word) : State :=
  { State.reset with
    salt := bytes ((List.range 16).map (BitVec.ofNat 8 ·)), nonce := bytes ((List.range 12).map (BitVec.ofNat 8 <| 16 + ·)),
    tag := bytes ((List.range 16).map (BitVec.ofNat 8 <| 32 + ·)), ct := bytes [0x68#8, 0x69#8], ctlen := ctlen }

/-- The frame of vector M1. -/
def frameM1 : List Byte :=
  [0x00#8, 0x00#8, 0x00#8, 0x2E#8] ++ (List.range 28).map (BitVec.ofNat 8 ·)
    ++ (List.range 16).map (BitVec.ofNat 8 <| 32 + ·) ++ [0x68#8, 0x69#8]

/-- The state after vector M1. -/
def marshalled : State := after (exec .marshal (fieldState 2#64))

/-- Vector M1. -/
theorem test_marshal_M1 :
    marshalled.f = bytes frameM1 ∧
    marshalled.flen = 50#64 ∧ marshalled.req = 0#64 ∧ marshalled.status.byte = 0x02#8 := by decide +kernel

/-- Vector M4. -/
theorem test_marshal_M4 :
    let t := after (exec .marshal (fieldState 17#64))
    t.f = [] ∧ t.flen = 0#64 ∧ t.req = 0#64 ∧ t.avail = 0#64 ∧ t.status.byte = 0x0E#8 := by decide +kernel

/-! ## PARSE -/

/-- The cover H(v) of spec/95_test_vectors.md up to element `n`, with CLEN = clen and CT_CAP = 1. -/
def headerState (v n clen : Nat) : State :=
  { State.reset with
    cfg := { Config.vectors with ctCap := ⟨1, by decide⟩ }, clen := BitVec.ofNat 64 clen, plen := 7#32,
    c := bytes ((List.range n).map (fun k =>
      if k < 32 then 0x80#8 + BitVec.ofNat 8 (v / 2 ^ (31 - k) % 2) else if k % 2 = 0 then 0x81#8 else 0x80#8)) }

/-- Vector Q1: the first and last byte of each field. -/
theorem test_parse_Q1 :
    let t := after (exec .parse { State.reset with
      clen := 400#64, c := bytes ((bitsOf frameM1).map (fun b => if b then 0x01#8 else 0x00#8)) })
    t.plen = 46#32 ∧ t.req = 400#64 ∧ t.avail = 400#64 ∧ t.ctlen = 2#64 ∧ t.ct = bytes [0x68#8, 0x69#8] ∧
      Memory.read t.salt 1 = some 0x01#8 ∧ Memory.read t.salt 15 = some 0x0F#8 ∧
      Memory.read t.nonce 0 = some 0x10#8 ∧ Memory.read t.nonce 11 = some 0x1B#8 ∧
      Memory.read t.tag 0 = some 0x20#8 ∧ Memory.read t.tag 15 = some 0x2F#8 ∧ t.status.byte = 0x02#8 := by
  decide +kernel

/-- Vector Q11: the length is not taken modulo 2^32. -/
theorem test_parse_Q11 :
    let t := after (exec .parse (headerState 4294967292 32 10000))
    t.plen = 4294967292#32 ∧ t.req = 34359738368#64 ∧ t.avail = 10000#64 ∧ t.status.byte = 0x06#8 := by
  decide +kernel

/-! ## Issue, STATUS and the ports -/

/-- Vector I4, its completion. -/
theorem test_illegal_I4 :
    let t := after (completeInFlight (State.reset.issue 0x81#8))
    t.cmd = 0x81#8 ∧ t.status.byte = 0x12#8 ∧ t.req = 0#64 ∧ t.avail = 0#64 := by decide

/-- Vectors I5 and I6. -/
theorem test_status_I5_I6 :
    State.reset.regValue 1 = 0x00#64 ∧ (State.reset.issue 0x01#8).regValue 1 = 0x01#64 := by decide

/-- Vectors I7 and I8. -/
theorem test_ports_I7_I8 :
    State.reset.writeReg 1 0xFF = State.reset ∧ (State.reset.writeReg 2 0x10000000000000005).clen = 5#64 := by decide

/-- The command byte of a script line (spec R101). -/
theorem test_script_marshal : scriptCommand .marshal = [.host (.writeReg 0 3), .wait] := by decide

/-! ## Witnesses: states that meet the hypotheses of the obligations

One theorem per obligation, in their order; an obligation without hypotheses has none. -/

theorem test_witness_CommandCodes :
    0x81#8 ≠ 0x01#8 ∧ 0x81#8 ≠ 0x02#8 ∧ 0x81#8 ≠ 0x03#8 ∧ 0x81#8 ≠ 0x04#8 ∧
    0x05#8 ≠ 0x01#8 ∧ 0x05#8 ≠ 0x02#8 ∧ 0x05#8 ≠ 0x03#8 ∧ 0x05#8 ≠ 0x04#8 := by decide

theorem test_witness_DecodeAndEncodeAgree :
    Instr.wellFormed .parse = true ∧ decode [0x04#8, 0x01#8] = .ok (.parse, [0x01#8]) := by decide

theorem test_witness_BytesOfInvertsBitsOf :
    (bitsOf [0xA5#8, 0x43#8]).length % 8 = 0 ∧ [true].length % 8 ≠ 0 ∧ [0xA5#8][7 / 8]? = some 0xA5#8 := by decide

theorem test_witness_HeaderBytesRoundTrip :
    4294967295 < 2 ^ 32 ∧ [0xFF#8, 0xFF#8, 0xFF#8, 0xFF#8].length = 4 := by decide

/-- A state with a command byte in flight and the turns given. -/
def inFlight (cmd : Byte) (ts : List Turn) : State := { State.reset.issue cmd with turns := ts }

theorem test_witness_StepRunsTheCommandInFlight : ∀ ts ∈ [[Turn.engine], [.wait], []],
    (inFlight 3#8 ts).status = .busy ∧ decode [(inFlight 3#8 ts).cmd] = .ok (.marshal, []) ∧
      (inFlight 3#8 ts).turns = ts := by decide

theorem test_witness_IssuedWordRunsNext : decodeTableWord 8 1 = some .embed ∧ decodeTableWord 8 4 = some .parse := by
  decide

/-- A state after reset with the turns given. -/
def idle (ts : List Turn) : State := { State.reset with turns := ts }

theorem test_witness_IssueRaisesBusy :
    (idle [.host (.writeReg 0 1)]).locked = false ∧ (inFlight 1#8 [.host (.writeReg 0 1)]).status = .busy := by decide

theorem test_witness_IllegalByteEndsInErrIllegal : ∀ v ∈ [0, 5, 255, 256],
    (idle [.host (.writeReg 0 v), .engine]).locked = false ∧ (v % 256 = 0 ∨ 4 < v % 256) := by decide

theorem test_witness_BusyEngineFinishes :
    (inFlight 1#8 [.host (.readReg 1), .stopOnError, .wait]).status = .busy ∧
    polite .flight (inFlight 1#8 [.host (.readReg 1), .stopOnError, .wait]).turns = true ∧
    polite .flight (inFlight 1#8 []).turns = true := by decide

/-- An access refused, one answered while busy, and one answered while idle. -/
theorem test_witness_AccessWhileBusyIsRefused :
    step (inFlight 1#8 [.host (.readReg 8)]) = .refused .hostAccessWhileBusy ∧
    step (inFlight 1#8 [.host (.readReg 1)]) = .next { inFlight 1#8 [] with reads := [0x01#64] } ∧
    ∃ t, step (idle [.host (.writeReg 0 1)]) = .next t := ⟨rfl, rfl, _, rfl⟩

theorem idle_inv (ts : List Turn) : (idle ts).Inv :=
  ⟨State.resetWith_spaces _, Nat.zero_le _, rfl, rfl, rfl, rfl, rfl⟩

theorem inFlight_inv (cmd : Byte) (ts : List Turn) : (inFlight cmd ts).Inv :=
  ⟨State.resetWith_spaces _, Nat.zero_le _, rfl⟩

theorem test_witness_PoliteHostIsNeverStopped :
    ((idle (scriptWr 2 0 ++ scriptCommand .embed ++ [.stopOnError] ++ scriptRd 8 ++ [.warmReset])).Inv ∧
      polite (idle []).phase (scriptWr 2 0 ++ scriptCommand .embed ++ [.stopOnError] ++ scriptRd 8 ++ [.warmReset])
        = true) ∧
    (inFlight 1#8 [.wait, .host (.readReg 8)]).Inv ∧
      polite (inFlight 1#8 []).phase [.wait, .host (.readReg 8)] = true :=
  ⟨⟨idle_inv _, by decide⟩, inFlight_inv _ _, by decide⟩

theorem test_witness_RegisterPortWrites : ∀ n ∈ [0, 1, 2, 3, 4, 5, 6, 7, 9, 10],
    (idle [.host (.writeReg n (2 ^ 64))]).locked = false ∧
      (idle [.host (.writeReg n (2 ^ 64))]).turns = [.host (.writeReg n (2 ^ 64))] := by decide

theorem test_witness_RegisterPortReads : ∀ n ∈ [0, 1, 2, 3, 4, 5, 6, 7, 8, 9, 10],
    (idle [.host (.readReg n)]).locked = false ∧ (idle [.host (.readReg n)]).turns = [.host (.readReg n)] := by decide

/-- The last byte of a space, the first beyond it, and a space number that names none. -/
theorem test_witness_BufferPortRespectsCapacities :
    (idle []).locked = false ∧
    (4 = Space.nonce.number ∧ 11 < Config.capacity (idle []).cfg .nonce) ∧
    (∀ sp : Space, 4 = sp.number → Config.capacity (idle []).cfg sp ≤ 12) ∧
    (∀ sp : Space, 6 = sp.number → Config.capacity (idle []).cfg sp ≤ 0) := by
  refine ⟨by decide, by decide, fun sp => ?_, fun sp => ?_⟩ <;> cases sp <;> decide

theorem test_witness_ResetClearsRegisters :
    ResetNext (inFlight 1#8 [.warmReset]) ∧ ResetNext (idle [.powerOnReset]) :=
  ⟨⟨[], .inl rfl⟩, [], .inr rfl⟩

theorem test_witness_ResetAndStorage :
    (idle [.warmReset]).turns = [.warmReset] ∧ (idle [.warmReset]).status ≠ .busy ∧
    (idle [.powerOnReset]).turns = [.powerOnReset] := by decide

/-- An EMBED in flight that would succeed, and one that would end with ERR_CAPACITY. -/
theorem test_witness_ResetCutsACommandShort :
    ∀ n ∈ [10, 7], ∃ u,
      ({ (embedState [0xA5#8] n 0).issue 1#8 with turns := [.warmReset] } : State).status = .busy ∧
      completeInFlight { (embedState [0xA5#8] n 0).issue 1#8 with turns := [] } = .next u := by
  intro n _
  obtain ⟨u, -, h, -⟩ := completeInFlight_next { (embedState [0xA5#8] n 0).issue 1#8 with turns := [] }
  exact ⟨u, rfl, h⟩

/-- The state after a power-on reset, and that after a warm reset over written fields and cover, in which the two reads
give what was written. -/
theorem test_witness_FirstCommandFromReset :
    (RegistersReset State.reset ∧ 48 ≤ State.reset.cfg.frameCap.val) ∧
    (let s := State.warmReset { fieldState 2#64 with c := bytes [0xFF#8] }
     RegistersReset s ∧ 48 ≤ s.cfg.frameCap.val ∧ Memory.read s.salt 15 = some 0x0F#8 ∧
       Memory.read s.c 0 = some 0xFF#8) := by
  unfold RegistersReset
  decide +kernel

/-- CLEN and FLEN alone. -/
def embedCounts (clen flen : Word) : State := { State.reset with clen := clen, flen := flen }

theorem test_witness_EmbedFollowsItsRule :
    (∀ s ∈ [embedCounts 10001#64 0#64, embedCounts 0#64 65#64],
      s.cfg.coverCap.val < s.clen.toNat ∨ s.cfg.frameCap.val < s.flen.toNat) ∧
    (∀ s ∈ [embedCounts 7#64 1#64, embedCounts 0#64 64#64],
      s.clen.toNat ≤ s.cfg.coverCap.val ∧ s.flen.toNat ≤ s.cfg.frameCap.val ∧ s.clen.toNat < 8 * s.flen.toNat) ∧
    ∀ s ∈ [embedCounts 8#64 1#64, embedCounts 0#64 0#64, embedCounts 10000#64 64#64],
      s.clen.toNat ≤ s.cfg.coverCap.val ∧ s.flen.toNat ≤ s.cfg.frameCap.val ∧ 8 * s.flen.toNat ≤ s.clen.toNat := by
  decide

/-- An EMBED that succeeds, and one that ends with an error. -/
theorem test_witness_EmbedFrame :
    (after (exec .embed (embedState [0xA5#8] 10 0))).status = .done .ok ∧
    (after (exec .embed (embedState [0xA5#8] 7 0))).status = .done .capacity := by decide +kernel

theorem test_witness_EmbedLaws : ∀ s ∈ [embedCounts 7#64 1#64, embedCounts 8#64 1#64],
    s.clen.toNat ≤ s.cfg.coverCap.val ∧ s.flen.toNat ≤ s.cfg.frameCap.val := by decide

theorem test_witness_EmbedReadsBack :
    (after (exec .embed (embedState [0xA5#8] 10 0))).status = .done .ok ∧
    ∀ j < (embedState [0xA5#8] 10 0).flen.toNat, (Memory.read (embedState [0xA5#8] 10 0).f j).isSome := by
  decide +kernel

theorem test_witness_ExtractFollowsItsRule :
    (∀ s ∈ [{ extractState 0 0 with clen := 10001#64 }, extractState 0 65],
      s.cfg.coverCap.val < s.clen.toNat ∨ s.cfg.frameCap.val < s.nbytes.toNat) ∧
    (∀ s ∈ [extractState 2 2, extractState 18 0, extractState 18446744073709551615 64],
      s.clen.toNat ≤ s.cfg.coverCap.val ∧ s.nbytes.toNat ≤ s.cfg.frameCap.val ∧
        s.clen.toNat < s.pos.toNat + 8 * s.nbytes.toNat) ∧
    ∀ s ∈ [extractState 1 2, extractState 17 0],
      s.clen.toNat ≤ s.cfg.coverCap.val ∧ s.nbytes.toNat ≤ s.cfg.frameCap.val ∧
        s.pos.toNat + 8 * s.nbytes.toNat ≤ s.clen.toNat := by decide

theorem test_witness_ExtractFrame :
    (after (exec .extract (extractState 1 2))).status = .done .ok ∧
    (after (exec .extract (extractState 2 2))).status = .done .capacity := by decide +kernel

/-- Vectors X1 and X9: the same bits 0, other upper bits. -/
theorem test_witness_ExtractSeesOnlyCoverBits :
    let s := extractState 0 2
    let r : State := { s with c := bytes [0x81#8, 0x7E#8, 0x03#8, 0xFC#8, 0x04#8, 0x07#8, 0x06#8, 0x09#8, 0x00#8,
      0x01#8, 0x00#8, 0x00#8, 0x00#8, 0x00#8, 0x01#8, 0x01#8, 0x55#8] }
    (∀ k < 8 * s.nbytes.toNat, r.lsb (s.pos.toNat + k) = s.lsb (s.pos.toNat + k)) ∧ r ≠ s := by decide +kernel

theorem test_witness_MarshalFollowsItsRule :
    (let s := fieldState 17#64
     s.cfg.ctCap.val < s.ctlen.toNat ∨ s.cfg.frameCap.val < 48 + s.ctlen.toNat) ∧
    ∀ s ∈ [fieldState 0#64, fieldState 16#64],
      s.ctlen.toNat ≤ s.cfg.ctCap.val ∧ 48 + s.ctlen.toNat ≤ s.cfg.frameCap.val := by decide

theorem test_witness_MarshalFrame :
    (after (exec .marshal (fieldState 2#64))).status = .done .ok ∧
    (after (exec .marshal (fieldState 17#64))).status = .done .resource := by decide +kernel

theorem test_witness_MarshalledFrameIsWellFormed :
    exec .marshal (fieldState 2#64) = .next marshalled ∧ marshalled.status = .done .ok := ⟨exec_after _ _, by decide +kernel⟩

/-- The marshalled frame with a cover of exactly the elements it needs, and one element fewer. -/
theorem test_witness_EncodeCapacityLaw : ∀ n ∈ [400, 399],
    ({ marshalled with clen := BitVec.ofNat 64 n } : State).cfg = (fieldState 2#64).cfg ∧
    (BitVec.ofNat 64 n).toNat ≤ (fieldState 2#64).cfg.coverCap.val :=
  fun n hn => ⟨after_cfg _ _, by revert n; decide⟩

/-- Each outcome of PARSE at its boundary: vectors Q14, Q4, Q6, Q5, Q12 and Q7. -/
theorem test_witness_ParseFollowsItsRule :
    (after (exec .parse (headerState 0 0 10001))).status = .done .resource ∧
    (after (exec .parse (headerState 0 0 31))).status = .done .capacity ∧
    (after (exec .parse (headerState 43 32 375))).status = .done .capacity ∧
    (after (exec .parse (headerState 43 32 376))).status = .done .format ∧
    (after (exec .parse (headerState 0 32 32))).status = .done .format ∧
    (after (exec .parse (headerState 46 32 400))).status = .done .resource ∧
    (after (exec .parse (headerState 44 32 384))).status = .done .ok := by decide +kernel

/-- The conditions of the clauses, at the same states. -/
theorem test_witness_ParseFollowsItsRule_conditions :
    (headerState 43 32 375).clen.toNat < 8 * ((headerState 43 32 375).coverHeader + 4) ∧
    8 * ((headerState 43 32 376).coverHeader + 4) ≤ (headerState 43 32 376).clen.toNat ∧
    (headerState 43 32 376).coverHeader < 44 ∧
    (headerState 46 32 400).cfg.ctCap.val < (headerState 46 32 400).coverHeader - 44 ∧
    44 ≤ (headerState 45 32 392).coverHeader ∧
    (headerState 45 32 392).coverHeader - 44 ≤ (headerState 45 32 392).cfg.ctCap.val := by decide +kernel

theorem test_witness_ParseFrame :
    (after (exec .parse (headerState 45 32 392))).status = .done .ok ∧
    (after (exec .parse (headerState 43 32 376))).status = .done .format ∧
    (headerState 0 0 31).clen.toNat < 32 := by decide +kernel

theorem read_map (g : Nat → Byte → Byte) (m : Memory) (a : Nat) :
    Memory.read (m.map (fun e => (e.1, g e.1 e.2))) a = (Memory.read m a).map (g a) := by
  induction m with
  | nil => rfl
  | cons e m ih =>
    obtain ⟨k, v⟩ := e
    by_cases h : k = a
    · subst h; simp
    · simp [h, ih]

/-- Changing every element by `g` changes bit 0 of a written element as `g` does. -/
theorem lsb_map (s : State) (g : Nat → Byte → Byte) (k : Nat) (h : (Memory.read s.c k).isSome) :
    State.lsb { s with c := s.c.map (fun e => (e.1, g e.1 e.2)) } k = (g k (s.peek .c k)).getLsbD 0 := by
  obtain ⟨v, hv⟩ := Option.isSome_iff_exists.mp h
  simp [State.lsb, State.peek, read_map, hv]

theorem header_written (v n clen k : Nat) (h : k < n) : (Memory.read (headerState v n clen).c k).isSome := by
  simp [headerState, bytes, Memory.read_entries, h]

/-- A cover and the same cover with every upper bit dropped. -/
theorem test_witness_ParseSeesOnlyCoverBits :
    ∀ k < (headerState 44 384 384).clen.toNat,
      State.lsb { headerState 44 384 384 with c := (headerState 44 384 384).c.map (fun e => (e.1, e.2 &&& 1#8)) } k =
        (headerState 44 384 384).lsb k := by
  intro k hk
  have bit : ∀ v : Byte, (v &&& 1#8).getLsbD 0 = v.getLsbD 0 := by decide
  have hk : k < 384 := by simpa [headerState] using hk
  exact (lsb_map (headerState 44 384 384) (fun _ v => v &&& 1#8) k (header_written 44 384 384 k hk)).trans (bit _)

theorem test_witness_TwoExtractsGiveTheParsedFields :
    let s := headerState 45 392 392
    let t := after (exec .parse s)
    t.status = .done .ok ∧ t.plen.toNat ≤ s.cfg.frameCap.val := by decide +kernel

/-- The marshalled frame over a cover of 400 elements that nobody has written. -/
def toEmbed : State := { marshalled with clen := 400#64 }

/-- The state after its EMBED. -/
def embedded : State := after (exec .embed toEmbed)

/-- The fields cleared, other upper bits, and 17 elements more than the frame has. -/
def toParse : State := { State.reset with clen := 417#64, c := embedded.c.map (fun e => (e.1, e.2 ||| 0xFE#8)) }

/-- Every hypothesis of the round trip. -/
theorem test_witness_RoundTripThroughTheCover :
    exec .marshal (fieldState 2#64) = .next marshalled ∧ marshalled.status = .done .ok ∧
    toEmbed.cfg = (fieldState 2#64).cfg ∧ toEmbed.flen = marshalled.flen ∧
    (∀ a < marshalled.flen.toNat, Memory.read toEmbed.f a = Memory.read marshalled.f a) ∧
    exec .embed toEmbed = .next embedded ∧ embedded.status = .done .ok ∧ toParse.cfg = (fieldState 2#64).cfg ∧
    384 + 8 * (fieldState 2#64).ctlen.toNat ≤ toParse.clen.toNat ∧
    toParse.clen.toNat ≤ (fieldState 2#64).cfg.coverCap.val ∧
    ∀ k < 384 + 8 * (fieldState 2#64).ctlen.toNat, ∃ v w, Memory.read embedded.c k = some v ∧
      Memory.read toParse.c k = some w ∧ w.getLsbD 0 = v.getLsbD 0 := by
  obtain ⟨t, ht, -, -, -, hr, -⟩ := execEmbed_success (s := toEmbed) (by decide +kernel) (by decide +kernel)
    (by decide +kernel)
  have he : embedded = t := by unfold embedded exec; rw [ht]; rfl
  refine ⟨exec_after _ _, by decide +kernel, after_cfg _ _, rfl, fun _ _ => rfl, exec_after _ _, by decide +kernel,
    rfl, by decide, by decide,
    fun k hk => ?_⟩
  have bit : ∀ v : Byte, (v ||| 0xFE#8).getLsbD 0 = v.getLsbD 0 := by decide
  have hf : 8 * toEmbed.flen.toNat = 400 := by decide +kernel
  have hk : k < 8 * toEmbed.flen.toNat := by rw [hf]; exact hk
  have hv := hr k
  rw [if_pos hk, ← he] at hv
  exact ⟨_, _, hv, by simp [toParse, read_map (fun _ v => v ||| 0xFE#8), hv], bit _⟩

/-- A cover that PARSE accepts with bit 0 of one element flipped, whichever it is: element 0 or 31 of the Header, 32 or
391 of the body, or 399 beyond the frame. -/
theorem test_witness_FlippedBitReachesOneField : ∀ k ∈ [0, 31, 32, 391, 399],
    k < (headerState 45 400 400).clen.toNat ∧
    (∀ j < (headerState 45 400 400).clen.toNat,
      State.lsb { headerState 45 400 400 with
        c := (headerState 45 400 400).c.map (fun e => (e.1, e.2 ^^^ (if e.1 = k then 1#8 else 0#8))) } j =
      ((headerState 45 400 400).lsb j ^^ decide (j = k))) ∧
    (after (exec .parse (headerState 45 400 400))).status = .done .ok := by
  intro k hk
  refine ⟨by revert k; decide, fun j hj => ?_, by decide +kernel⟩
  have hj : j < 400 := by simpa [headerState] using hj
  refine (lsb_map (headerState 45 400 400) (fun i v => v ^^^ (if i = k then 1#8 else 0#8)) j
    (header_written 45 400 400 j hj)).trans ?_
  by_cases h : j = k
  · simp [h, State.lsb]
  · simp [h, State.lsb]

/-- STATUS changes at an issue, at a completion and at a reset. -/
theorem test_witness_StatusIsWrittenOnlyAtIssueCompletionReset :
    (after (step (idle [.host (.writeReg 0 1)]))).status ≠ (idle []).status ∧
    (after (step (inFlight 1#8 [.engine]))).status ≠ (inFlight 1#8 []).status ∧
    (after (step (inFlight 0#8 [.warmReset]))).status ≠ (inFlight 0#8 []).status := by decide +kernel

/-- One error of each kind of command, and an illegal byte. -/
theorem test_witness_ErrorsArePrecise :
    (after (exec .embed (embedCounts 7#64 1#64))).status = .done .capacity ∧
    (after (exec .parse (headerState 43 32 376))).status = .done .format ∧
    (after (completeInFlight (inFlight 5#8 []))).status = .done .illegal := by decide +kernel

theorem test_witness_CapacityErrorPlaces :
    (after (exec .extract (extractState 18446744073709551615 64))).status = .done .capacity ∧
    (after (exec .parse (headerState 43 32 375))).status = .done .capacity := by decide +kernel

theorem test_witness_FormatErrorPlace : (after (exec .parse (headerState 0 32 32))).status = .done .format := by
  decide +kernel

theorem test_witness_ResourceErrorPlaces :
    (after (exec .marshal (fieldState 17#64))).status = .done .resource ∧
    (after (exec .parse (headerState 46 32 400))).status = .done .resource := by decide +kernel

/-- A step of a state that meets the invariant: an issue, and a completion. -/
theorem test_witness_EveryStepKeepsTheInvariant :
    ((idle [.host (.writeReg 0 1)]).Inv ∧ ∃ t, step (idle [.host (.writeReg 0 1)]) = .next t) ∧
    (inFlight 1#8 [.engine]).Inv ∧ ∃ t, step (inFlight 1#8 [.engine]) = .next t :=
  ⟨⟨idle_inv _, _, rfl⟩, inFlight_inv _ _, _, rfl⟩

theorem test_witness_CapacitiesNeverChange : ∃ t, step (idle []) = .next t := ⟨_, rfl⟩

theorem test_witness_OperandRegistersBelongToTheHost :
    (after (step (idle [.host (.writeReg 2 1)]))).clen ≠ (idle []).clen ∧
    (after (step (idle [.host (.writeReg 5 1)]))).pos ≠ (idle []).pos ∧
    (after (step (idle [.host (.writeReg 6 1)]))).nbytes ≠ (idle []).nbytes := by decide

/-- PLEN changes at a PARSE and at a reset. -/
theorem test_witness_PlenIsWrittenOnlyByParse :
    (after (step { (headerState 43 32 376).issue 4#8 with turns := [.engine] })).plen ≠ (headerState 43 32 376).plen ∧
    (after (step { headerState 43 32 376 with turns := [.warmReset] })).plen ≠ (headerState 43 32 376).plen := by
  decide +kernel

/-- The cover changes at an EMBED, at a buffer write and at a power-on reset. -/
theorem test_witness_CoverIsWrittenOnlyByEmbedAndHost :
    let s := embedState [0xA5#8] 10 0
    Memory.read (after (step { s.issue 1#8 with turns := [.engine] })).c 0 ≠ Memory.read s.c 0 ∧
    Memory.read (after (step { s with turns := [.host (.writeByte 0 9999 1#8)] })).c 9999 ≠ Memory.read s.c 9999 ∧
    Memory.read (after (step { s with turns := [.powerOnReset] })).c 0 ≠ Memory.read s.c 0 := by decide +kernel

/-- Two covers that differ only beyond CLEN. -/
theorem test_witness_CommandsIgnoreTheCoverBeyondClen :
    let s := embedState [0xA5#8] 10 0
    let m := s.c.write 10 [0xFF#8]
    (∀ k < s.clen.toNat, Memory.read m k = Memory.read s.c k) ∧ m ≠ s.c := by decide +kernel

end Sys2Proof.Tests
end

section
/-! SUPPORT. The serialised bits and the bytes packed from them, the Header's digits, the reads of the cover, and the
capacities over one step. -/

namespace Sys2Proof.Machine

/-! ## Bits and bytes (spec R10, R11) -/

/-- Reading a byte's bits in the order of the wire, first bit with weight 2^7 (spec R11, R62). -/
theorem byte_toNat_eq_sum (b : Byte) :
    b.toNat = ((List.range 8).map (fun t => (b.getLsbD (7 - t)).toNat * 2 ^ (7 - t))).sum := by
  revert b; decide

/-- A byte is the weighted sum of any eight bits that are its own, most-significant first. -/
theorem byte_toNat_of_bits {b : Byte} {bit : Nat → Bool} (h : ∀ t < 8, b.getLsbD (7 - t) = bit t) :
    b.toNat = ((List.range 8).map (fun t => (bit t).toNat * 2 ^ (7 - t))).sum := by
  rw [byte_toNat_eq_sum]
  exact congrArg List.sum (List.map_congr_left (fun t ht => by rw [h t (List.mem_range.mp ht)]))

theorem bytesOf_byteBits_append (b : Byte) (bits : List Bool) :
    bytesOf (byteBits b ++ bits) = (bytesOf bits).map (b :: ·) := by
  simp only [byteBits, List.cons_append, List.nil_append, bytesOf, packByte_bits]

theorem bytesOf_bitsOf (s : List Byte) : bytesOf (bitsOf s) = some s := by
  induction s with
  | nil => rfl
  | cons b s ih => rw [bitsOf_cons, bytesOf_byteBits_append, ih, Option.map_some]

theorem bitsOf_of_bytesOf {bits : List Bool} {s : List Byte} (h : bytesOf bits = some s) : bitsOf s = bits := by
  induction bits using bytesOf.induct generalizing s with
  | case1 => cases h; rfl
  | case2 b0 b1 b2 b3 b4 b5 b6 b7 rest ih =>
    rw [bytesOf] at h
    obtain ⟨r, hr, rfl⟩ := Option.map_eq_some_iff.mp h
    rw [bitsOf_cons, byteBits_packByte, ih hr]
    rfl
  | case3 bits hnil hcons => rw [bytesOf.eq_3 bits hnil hcons] at h; cases h

/-- Packing and serialising undo each other (spec R11). -/
theorem bytesOf_eq_some_iff {bits : List Bool} {s : List Byte} : bytesOf bits = some s ↔ bitsOf s = bits :=
  ⟨bitsOf_of_bytesOf, fun h => h ▸ bytesOf_bitsOf s⟩

theorem exists_bitsOf_eq (bits : List Bool) (h : bits.length % 8 = 0) : ∃ s, bitsOf s = bits := by
  induction bits using bytesOf.induct with
  | case1 => exact ⟨[], rfl⟩
  | case2 b0 b1 b2 b3 b4 b5 b6 b7 rest ih =>
    obtain ⟨s, rfl⟩ := ih (by simp only [List.length_cons] at h; omega)
    exact ⟨packByte b0 b1 b2 b3 b4 b5 b6 b7 :: s, by rw [bitsOf_cons, byteBits_packByte]; rfl⟩
  | case3 bits hnil hcons =>
    match bits, h with
    | [], _ => exact absurd rfl hnil
    | b0 :: b1 :: b2 :: b3 :: b4 :: b5 :: b6 :: b7 :: rest, _ => exact absurd rfl (hcons _ _ _ _ _ _ _ _ _)

/-- spec R11, R120: a length that is no multiple of 8 has no bytes, since a serialised sequence has 8 bits per byte. -/
theorem bytesOf_eq_none {bits : List Bool} (h : bits.length % 8 ≠ 0) : bytesOf bits = none := by
  refine Option.eq_none_iff_forall_ne_some.mpr (fun s hs => h ?_)
  rw [← bitsOf_of_bytesOf hs, bitsOf_length, Nat.mul_mod_right]

/-- The bits of byte `j` of a serialised sequence are those at `8 * j` to `8 * j + 7` (spec R10). -/
theorem bitsOf_getD {s : List Byte} {j : Nat} {v : Byte} (hv : s[j]? = some v) {t : Nat} (ht : t < 8) :
    v.getLsbD (7 - t) = (bitsOf s).getD (8 * j + t) false := by
  rw [List.getD_eq_getElem?_getD, bitsOf_getElem, show (8 * j + t) / 8 = j by omega,
    show (8 * j + t) % 8 = t by omega, hv]
  rfl

/-! ## The Header (spec R12) -/

theorem be32_u32be {v : Nat} (h : v < 2 ^ 32) : be32 (u32be v) = v := by
  rw [u32be, be32_four]
  simp only [BitVec.toNat_ofNat]
  omega

theorem u32be_be32_four (a b c d : Byte) : u32be (be32 [a, b, c, d]) = [a, b, c, d] := by
  have := a.isLt; have := b.isLt; have := c.isLt; have := d.isLt
  rw [be32_four, u32be]
  congr <;> (apply BitVec.eq_of_toNat_eq; rw [BitVec.toNat_ofNat]; omega)

theorem u32be_be32 {s : List Byte} (h : s.length = 4) : u32be (be32 s) = s := by
  match s, h with
  | [a, b, c, d], _ => exact u32be_be32_four a b c d

/-- Dividing by `2 ^ k` and keeping eight bits takes the slice from bit `k` on. -/
theorem ofNat_div_eq_extractLsb' {w : Nat} (v : BitVec w) (k : Nat) :
    BitVec.ofNat 8 (v.toNat / 2 ^ k) = v.extractLsb' k 8 := by
  rw [BitVec.extractLsb', Nat.shiftRight_eq_div_pow]

theorem u32be_toNat (v : BitVec 32) :
    u32be v.toNat = [v.extractLsb' 24 8, v.extractLsb' 16 8, v.extractLsb' 8 8, v.extractLsb' 0 8] := by
  simp only [u32be, ← ofNat_div_eq_extractLsb', Nat.pow_zero, Nat.div_one]

/-! ## Reads of the cover (spec R14) -/

theorem State.lsb_toNat (s : State) (k : Nat) : (s.lsb k).toNat = (s.peek .c k).toNat % 2 := by
  rw [State.lsb, BitVec.getLsbD, Nat.testBit_zero]
  rcases Nat.mod_two_eq_zero_or_one (s.peek .c k).toNat with h | h <;> rw [h] <;> rfl

theorem State.lsbByte_toNat (s : State) (k : Nat) :
    (s.lsbByte k).toNat = ((List.range 8).map (fun t => (s.peek .c (k + t)).toNat % 2 * 2 ^ (7 - t))).sum := by
  rw [byte_toNat_of_bits (fun t ht => s.lsbByte_bit k t ht)]
  simp only [State.lsb_toNat]

/-- The bits of the bytes read are bit 0 of the elements, in order: `LsbRead` packs what `BitsOf` lists. -/
theorem State.bitsOf_lsbRead (s : State) (a n : Nat) :
    bitsOf (s.lsbRead a n) = (List.range (8 * n)).map (fun k => s.lsb (a + k)) := by
  apply List.ext_getElem?
  intro k
  rw [bitsOf_getElem, List.getElem?_map]
  rcases Nat.lt_or_ge k (8 * n) with h | h
  · rw [State.lsbRead_getElem s a n (k / 8) (by omega), List.getElem?_range h, Option.map_some, Option.map_some,
      State.lsbByte_bit s _ _ (by omega), show a + 8 * (k / 8) + k % 8 = a + k by omega]
  · rw [List.getElem?_eq_none (by rw [State.lsbRead_length]; omega),
      List.getElem?_eq_none (by rw [List.length_range]; exact h)]
    rfl

/-! ## The capacities (spec R6) -/

@[simp] theorem State.writeReg_cfg (s : State) (n v : Nat) : (s.writeReg n v).cfg = s.cfg := by
  rcases s.writeReg_cases n v with ⟨-, e⟩ | ⟨-, x, e⟩ | ⟨-, x, e⟩ | ⟨-, x, e⟩ | ⟨-, x, e⟩ | ⟨-, x, e⟩ | e <;>
    simp only [e, State.issue_cfg]

@[simp] theorem State.writeByte_cfg (s : State) (n k : Nat) (v : Byte) : (s.writeByte n k v).cfg = s.cfg := by
  rcases s.writeByte_cases n k v with e | ⟨sp, -, -, e⟩
  · rw [e]
  · rw [e, State.memWrite_cfg]

@[simp] theorem State.stopOnError_cfg (s : State) : s.stopOnError.cfg = s.cfg := by
  rcases s.stopOnError_cases with e | e <;> rw [e]

@[simp] theorem State.cutSpaces_cfg (s t : State) : (s.cutSpaces t).cfg = s.cfg := rfl

@[simp] theorem State.powerOnReset_cfg (s : State) : s.powerOnReset.cfg = s.cfg := rfl

@[simp] theorem State.warmReset_cfg (s : State) : s.warmReset.cfg = s.cfg := by
  rcases s.warmReset_cases with ⟨-, e⟩ | ⟨-, t, -, e⟩
  · rw [e, State.resetRegisters_cfg]
  · rw [e, State.resetRegisters_cfg, State.cutSpaces_cfg]

theorem completeInFlight_cfg {s t : State} (h : completeInFlight s = .next t) : t.cfg = s.cfg := by
  obtain ⟨u, -, hu, -, -, hcfg, -⟩ := completeInFlight_next s
  rw [h] at hu
  cases hu
  exact hcfg

/-- A step is a completion, a host access, a script turn, an idle turn or a reset, and none of them writes `cfg`. -/
theorem step_cfg {s t : State} (h : step s = .next t) : t.cfg = s.cfg := by
  rcases step_cases h with ⟨u, -, hu, e⟩ | ⟨ts, -, rfl⟩ | ⟨n, ts, -, -, rfl⟩ | ⟨n, v, ts, -, -, rfl⟩ |
    ⟨n, k, ts, -, -, w, rfl⟩ | ⟨n, k, v, ts, -, -, rfl⟩ | ⟨ts, -, rfl⟩ | ⟨ts, -, rfl⟩ | ⟨ts, -, -, rfl⟩ |
    ⟨ts, -, rfl⟩ | ⟨ts, -, rfl⟩
  case inl => rw [completeInFlight_cfg hu, e]
  all_goals simp

end Sys2Proof.Machine

namespace Sys2Proof.Proofs

open Sys2Proof.Machine

/-- Settles O3: packing and serialising are inverse by induction eight bits at a time; the formula for byte `j` reads
its bits off the serialised sequence. -/
theorem bytesOfInvertsBitsOf : Obligations.BytesOfInvertsBitsOf := by
  refine ⟨bytesOf_bitsOf, fun b hb => ?_, fun b hb => bytesOf_eq_none hb, fun s k v hv => ?_⟩
  · obtain ⟨s, rfl⟩ := exists_bitsOf_eq b hb
    refine ⟨s, bytesOf_bitsOf s, rfl, ?_, fun j v hv => byte_toNat_of_bits (fun t ht => bitsOf_getD hv ht)⟩
    rw [bitsOf_length, Nat.mul_div_cancel_left _ (by decide)]
  · rw [bitsOf_getElem, hv, BitVec.getLsbD_ushiftRight, Nat.add_zero, Option.map_some]

/-- Settles O4: the four bytes are the base-256 digits of a number below 2^32, each a slice of its bits. -/
theorem headerBytesRoundTrip : Obligations.HeaderBytesRoundTrip :=
  ⟨fun _ hv => be32_u32be hv, fun _ hs => u32be_be32 hs, be32_four, u32be_toNat⟩

/-- Settles O5: the bits of the bytes read are bit 0 of the elements, so `BytesOf` of these gives the bytes back. -/
theorem lsbReadFormula : Obligations.LsbReadFormula := by
  intro s a n
  refine ⟨s.lsbRead_length a n, fun j hj => ?_, bytesOf_eq_some_iff.mpr (s.bitsOf_lsbRead a n)⟩
  exact ⟨_, s.lsbRead_getElem a n j hj, s.lsbByte_toNat _⟩

/-- Settles O49: no turn of any agent writes the capacities. -/
theorem capacitiesNeverChange : Obligations.CapacitiesNeverChange :=
  fun _ _ h => step_cfg h

end Sys2Proof.Proofs
end

section
/-! SUPPORT. The kinds of step with the fields each may write, and what a completion says of STATUS, PLEN and the
cover. -/

namespace Sys2Proof.Machine

/-! ## The kinds of step (spec R16) -/

/-- What a step of the machine is, by what of SHLE it may write: a completion (spec R105), a write of the host to a
register or a buffer (spec R33, R70), a reset (spec R180), or a quiet step, which writes only the model's own fields
(log 3, 4, 7, 8) and releases the host at most when DONE = 1 (spec R187). -/
inductive StepKind (s t : State) : Prop where
  | completion (ts : List Turn) (busy : s.status = .busy) (completes : completeInFlight { s with turns := ts } = .next t)
  | registerWrite (n v : Nat) (ts : List Turn) (turn : s.turns = .host (.writeReg n v) :: ts)
      (state : t = State.writeReg { s with turns := ts } n v)
  | bufferWrite (n k : Nat) (v : Byte) (ts : List Turn) (turn : s.turns = .host (.writeByte n k v) :: ts)
      (state : t = State.writeByte { s with turns := ts } n k v)
  | warmReset (ts : List Turn) (turn : s.turns = .warmReset :: ts) (state : t = State.warmReset { s with turns := ts })
  | powerOnReset (ts : List Turn) (turn : s.turns = .powerOnReset :: ts)
      (state : t = State.powerOnReset { s with turns := ts })
  | quiet (ts : List Turn) (rs : List Word) (b : Bool) (d : Nat)
      (state : t = { s with turns := ts, reads := rs, awaiting := b, draws := d })
      (release : b = s.awaiting ∨ b = (s.awaiting && !s.status.doneBit))

theorem step_kind {s t : State} (h : step s = .next t) : StepKind s t := by
  rcases step_cases h with ⟨u, hb, hu, e⟩ | ⟨ts, -, rfl⟩ | ⟨n, ts, -, -, rfl⟩ | ⟨n, v, ts, hts, -, ht⟩ |
    ⟨n, k, ts, -, -, w, rfl⟩ | ⟨n, k, v, ts, hts, -, ht⟩ | ⟨ts, -, rfl⟩ | ⟨ts, -, ht⟩ | ⟨ts, -, -, rfl⟩ |
    ⟨ts, hts, ht⟩ | ⟨ts, hts, ht⟩
  · exact .completion u.turns hb (by rw [← e]; exact hu)
  · exact .quiet ts _ _ _ rfl (.inr rfl)
  · exact .quiet ts _ _ _ rfl (.inl rfl)
  · exact .registerWrite n v ts hts ht
  · exact .quiet ts _ _ _ rfl (.inl rfl)
  · exact .bufferWrite n k v ts hts ht
  · exact .quiet ts _ _ _ rfl (.inl rfl)
  · rcases State.stopOnError_cases { s with turns := ts } with e | e <;> rw [e] at ht <;>
      exact .quiet _ _ _ _ ht (.inl rfl)
  · exact .quiet ts _ _ _ rfl (.inr rfl)
  · exact .warmReset ts hts ht
  · exact .powerOnReset ts hts ht

/-! ## What a register write leaves unchanged (spec R33) -/

section writeReg
variable (s : State) (n v : Nat)

@[simp] theorem State.writeReg_plen : (s.writeReg n v).plen = s.plen := by
  rcases s.writeReg_cases n v with ⟨-, e⟩ | ⟨-, x, e⟩ | ⟨-, x, e⟩ | ⟨-, x, e⟩ | ⟨-, x, e⟩ | ⟨-, x, e⟩ | e <;>
    simp only [e, State.issue_plen]

@[simp] theorem State.writeReg_avail : (s.writeReg n v).avail = s.avail := by
  rcases s.writeReg_cases n v with ⟨-, e⟩ | ⟨-, x, e⟩ | ⟨-, x, e⟩ | ⟨-, x, e⟩ | ⟨-, x, e⟩ | ⟨-, x, e⟩ | e <;>
    simp only [e, State.issue_avail]

@[simp] theorem State.mem_writeReg (sp : Space) : (s.writeReg n v).mem sp = s.mem sp := by
  rcases s.writeReg_cases n v with ⟨-, e⟩ | ⟨-, x, e⟩ | ⟨-, x, e⟩ | ⟨-, x, e⟩ | ⟨-, x, e⟩ | ⟨-, x, e⟩ | e <;>
    rw [e] <;> cases sp <;> rfl

/-- Each of STATUS, CLEN, POS and NBYTES changes by a write to one register number alone. -/
theorem State.writeReg_changes :
    ((s.writeReg n v).status ≠ s.status → n = 0) ∧ ((s.writeReg n v).clen ≠ s.clen → n = 2) ∧
    ((s.writeReg n v).pos ≠ s.pos → n = 5) ∧ ((s.writeReg n v).nbytes ≠ s.nbytes → n = 6) := by
  rcases s.writeReg_cases n v with ⟨rfl, e⟩ | ⟨rfl, x, e⟩ | ⟨rfl, x, e⟩ | ⟨rfl, x, e⟩ | ⟨rfl, x, e⟩ | ⟨rfl, x, e⟩ | e <;>
    simp [e]

theorem State.writeReg_ignored {n : Nat} (h : n = 1 ∨ 7 ≤ n) : s.writeReg n v = s := by
  rcases s.writeReg_cases n v with ⟨rfl, -⟩ | ⟨rfl, -⟩ | ⟨rfl, -⟩ | ⟨rfl, -⟩ | ⟨rfl, -⟩ | ⟨rfl, -⟩ | e
  case inr.inr.inr.inr.inr.inr => exact e
  all_goals omega

end writeReg

/-! ## What a buffer write leaves unchanged (spec R70) -/

/-- A buffer write changes one space at most: every register and field is as before. -/
theorem State.writeByte_eq (s : State) (n k : Nat) (v : Byte) :
    s.writeByte n k v = { s with
      c := (s.writeByte n k v).c, f := (s.writeByte n k v).f, ct := (s.writeByte n k v).ct,
      salt := (s.writeByte n k v).salt, nonce := (s.writeByte n k v).nonce, tag := (s.writeByte n k v).tag } := by
  rcases s.writeByte_cases n k v with e | ⟨sp, -, -, e⟩ <;> rw [e]
  cases sp <;> rfl

/-- A buffer write that changes the cover is a write of that element (spec R39). -/
theorem State.writeByte_cover {s : State} {n k a : Nat} {v : Byte}
    (h : Memory.read (s.writeByte n k v).c a ≠ Memory.read s.c a) : n = 0 ∧ k = a := by
  rcases s.writeByte_cases n k v with e | ⟨sp, rfl, -, e⟩ <;> rw [e] at h
  · exact absurd rfl h
  · cases sp
    case c =>
      refine ⟨rfl, Classical.byContradiction fun hk => h (Memory.read_write_outside ?_)⟩
      simp only [List.length_singleton]; omega
    all_goals exact absurd rfl h

/-! ## Resets (spec R180) -/

theorem resetNext_warm {s : State} {ts : List Turn} (h : s.turns = .warmReset :: ts) : ResetNext s := ⟨ts, .inl h⟩

theorem resetNext_powerOn {s : State} {ts : List Turn} (h : s.turns = .powerOnReset :: ts) : ResetNext s := ⟨ts, .inr h⟩

/-- A warm reset is a reset of the registers over some contents of the spaces. -/
theorem State.warmReset_eq (s : State) : ∃ u : State, s.warmReset = u.resetRegisters := by
  rcases s.warmReset_cases with ⟨-, e⟩ | ⟨-, t, -, e⟩ <;> exact ⟨_, e⟩

@[simp] theorem State.warmReset_status (s : State) : s.warmReset.status = .idle := by
  obtain ⟨u, e⟩ := s.warmReset_eq
  rw [e, State.resetRegisters_status]

@[simp] theorem State.warmReset_plen (s : State) : s.warmReset.plen = 0#32 := by
  obtain ⟨u, e⟩ := s.warmReset_eq
  rw [e, State.resetRegisters_plen]

/-! ## Completions (spec R105) -/

/-- What the state after a completion is: that of one of the four commands, or that of an illegal byte. -/
theorem completeInFlight_eq_next {s t : State} (h : completeInFlight s = .next t) :
    (∃ i, decode [s.cmd] = .ok (i, []) ∧ exec i s = .next t) ∨
    ((∃ e, decode [s.cmd] = .error e) ∧ t = s.completeIllegal) := by
  rcases completeInFlight_cases s with ⟨i, hd, e⟩ | ⟨hd, e⟩ <;> rw [e] at h
  · exact .inl ⟨i, hd, h⟩
  · cases h; exact .inr ⟨hd, rfl⟩

theorem completeInFlight_done {s t : State} (h : completeInFlight s = .next t) : ∃ e, t.status = .done e := by
  obtain ⟨u, e, hu, hs, -⟩ := completeInFlight_next s
  cases h.symm.trans hu
  exact ⟨e, hs⟩

/-- A completion leaves the operand registers alone (spec R22, R25). -/
theorem completeInFlight_operands {s t : State} (h : completeInFlight s = .next t) :
    t.clen = s.clen ∧ t.pos = s.pos ∧ t.nbytes = s.nbytes := by
  obtain ⟨u, -, hu, -, -, -, -, hclen, hpos, hnbytes, -⟩ := completeInFlight_next s
  cases h.symm.trans hu
  exact ⟨hclen, hpos, hnbytes⟩

/-! ## PLEN and the cover over a command -/

/-- PLEN changes only in a PARSE that has read the Header, and is then the Header (spec R32). -/
theorem exec_plen {i : Instr} {s t : State} (h : exec i s = .next t) :
    t.plen = s.plen ∨ (i = .parse ∧ 32 ≤ s.clen.toNat ∧ t.plen.toNat = s.coverHeader) := by
  cases i with
  | embed =>
    rcases execEmbed_cases s with ⟨-, e⟩ | ⟨-, -, -, e⟩ | ⟨-, -, -, e⟩ <;> cases h.symm.trans e <;> simp
  | extract =>
    rcases execExtract_cases s with ⟨-, e⟩ | ⟨-, -, -, e⟩ | ⟨-, -, -, e⟩ <;> cases h.symm.trans e <;> simp
  | marshal => rcases execMarshal_cases s with ⟨-, e⟩ | ⟨-, -, e⟩ <;> cases h.symm.trans e <;> simp
  | parse =>
    rcases execParse_cases s with ⟨-, e⟩ | ⟨-, -, e⟩ | ⟨-, h32, -, e⟩ | ⟨-, hfit, -, e⟩ | ⟨-, hfit, -, e⟩ |
      ⟨-, hfit, -, -, e⟩ <;> cases h.symm.trans e
    · exact .inl rfl
    · exact .inl rfl
    · exact .inr ⟨rfl, h32, s.headerRead_plen⟩
    · exact .inr ⟨rfl, by omega, s.headerRead_plen⟩
    · exact .inr ⟨rfl, by omega, s.headerRead_plen⟩
    · exact .inr ⟨rfl, by omega, by rw [State.complete_plen, State.splitBody_plen, State.headerRead_plen]⟩

theorem completeInFlight_plen {s t : State} (h : completeInFlight s = .next t) :
    t.plen = s.plen ∨ (decode [s.cmd] = .ok (.parse, []) ∧ 32 ≤ s.clen.toNat ∧ t.plen.toNat = s.coverHeader) := by
  rcases completeInFlight_eq_next h with ⟨i, hd, hi⟩ | ⟨-, rfl⟩
  · refine (exec_plen hi).imp id fun ⟨hp, h32, hplen⟩ => ?_
    subst hp
    exact ⟨hd, h32, hplen⟩
  · exact .inl rfl

/-- No command but EMBED writes the cover (spec R39). -/
theorem exec_c {i : Instr} {s t : State} (hi : i ≠ .embed) (h : exec i s = .next t) : t.c = s.c := by
  cases i with
  | embed => exact absurd rfl hi
  | extract =>
    rcases execExtract_cases s with ⟨-, e⟩ | ⟨-, -, -, e⟩ | ⟨-, -, -, e⟩ <;> cases h.symm.trans e <;> simp
  | marshal => rcases execMarshal_cases s with ⟨-, e⟩ | ⟨-, -, e⟩ <;> cases h.symm.trans e <;> simp
  | parse =>
    rcases execParse_cases s with ⟨-, e⟩ | ⟨-, -, e⟩ | ⟨-, -, -, e⟩ | ⟨-, -, -, e⟩ | ⟨-, -, -, e⟩ |
      ⟨-, -, -, -, e⟩ <;> cases h.symm.trans e <;> simp [State.headerRead]

/-- EMBED writes no element but those of the frame's bits, which lie below CLEN (spec R39, R111). -/
theorem execEmbed_c_read {s t : State} (h : execEmbed s = .next t) (a : Nat) :
    Memory.read t.c a = Memory.read s.c a ∨ (a < 8 * s.flen.toNat ∧ a < s.clen.toNat) := by
  rcases execEmbed_cases s with ⟨-, e⟩ | ⟨-, -, -, e⟩ | ⟨-, -, hfit, e⟩ <;> cases h.symm.trans e
  · exact .inl rfl
  · exact .inl rfl
  · rcases Nat.lt_or_ge a (8 * s.flen.toNat) with ha | ha
    · exact .inr ⟨ha, by omega⟩
    · left
      rw [State.complete_c, State.embedWrite_read, if_neg (by omega), State.setCounts_c]

theorem completeInFlight_cover {s t : State} (h : completeInFlight s = .next t) (a : Nat) :
    Memory.read t.c a = Memory.read s.c a ∨
      (decode [s.cmd] = .ok (.embed, []) ∧ a < 8 * s.flen.toNat ∧ a < s.clen.toNat) := by
  rcases completeInFlight_eq_next h with ⟨i, hd, hi⟩ | ⟨-, rfl⟩
  · by_cases he : i = .embed
    · subst he
      exact (execEmbed_c_read hi a).imp id fun hr => ⟨hd, hr⟩
    · exact .inl (by rw [exec_c he hi])
  · exact .inl rfl

/-! ## Two covers that agree below CLEN (spec R39) -/

section twoCovers
variable {s : State} {m : Memory} (hm : ∀ k < s.clen.toNat, Memory.read m k = Memory.read s.c k)
include hm

theorem lsbRead_of_agree {a n : Nat} (h : a + 8 * n ≤ s.clen.toNat) :
    State.lsbRead { s with c := m } a n = s.lsbRead a n :=
  State.lsbRead_congr fun k hk =>
    congrArg (BitVec.getLsbD · 0) (State.peek_congr (sp := .c) (hm (a + k) (by omega)) rfl)

theorem coverHeader_of_agree (h : 32 ≤ s.clen.toNat) : State.coverHeader { s with c := m } = s.coverHeader := by
  rw [State.coverHeader, lsbRead_of_agree hm (by omega), State.coverHeader]

theorem headerRead_of_agree (h : 32 ≤ s.clen.toNat) :
    State.headerRead { s with c := m } = { s.headerRead with c := m } := by
  rw [State.headerRead, coverHeader_of_agree hm h]
  rfl

/-- A command that does not write the cover ends alike over both covers. -/
theorem exec_of_agree {i : Instr} (hi : i ≠ .embed) :
    ∃ t, exec i s = .next t ∧ exec i { s with c := m } = .next { t with c := m } := by
  cases i with
  | embed => exact absurd rfl hi
  | extract =>
    rcases execExtract_cases s with ⟨h, e⟩ | ⟨h1, h2, h3, e⟩ | ⟨h1, h2, h3, e⟩ <;> refine ⟨_, e, ?_⟩
    · exact execExtract_resource (s := { s with c := m }) h
    · exact execExtract_capacity (s := { s with c := m }) h1 h2 h3
    · refine (execExtract_ok (s := { s with c := m }) h1 h2 h3).trans ?_
      rw [lsbRead_of_agree hm h3]
      rfl
  | marshal =>
    rcases execMarshal_cases s with ⟨h, e⟩ | ⟨h1, h2, e⟩ <;> refine ⟨_, e, ?_⟩
    · exact execMarshal_resource (s := { s with c := m }) h
    · exact execMarshal_ok (s := { s with c := m }) h1 h2
  | parse =>
    rcases execParse_cases s with ⟨h, e⟩ | ⟨h1, h2, e⟩ | ⟨h1, h2, h3, e⟩ | ⟨h1, h2, h3, e⟩ | ⟨h1, h2, h3, e⟩ |
      ⟨h1, h2, h3, h4, e⟩ <;> refine ⟨_, e, ?_⟩
    · exact execParse_tooLong (s := { s with c := m }) h
    · exact execParse_noHeader (s := { s with c := m }) h1 h2
    · have hh := coverHeader_of_agree hm h2
      refine (execParse_capacity (s := { s with c := m }) h1 h2 (by rw [hh]; exact h3)).trans ?_
      rw [headerRead_of_agree hm h2]
      rfl
    · have hh := coverHeader_of_agree hm (by omega)
      refine (execParse_format (s := { s with c := m }) h1 (by rw [hh]; exact h2) (by rw [hh]; exact h3)).trans ?_
      rw [headerRead_of_agree hm (by omega)]
      rfl
    · have hh := coverHeader_of_agree hm (by omega)
      refine (execParse_tooBig (s := { s with c := m }) h1 (by rw [hh]; exact h2) (by rw [hh]; exact h3)).trans ?_
      rw [headerRead_of_agree hm (by omega)]
      rfl
    · have hh := coverHeader_of_agree hm (by omega)
      refine (execParse_ok (s := { s with c := m }) h1 (by rw [hh]; exact h2) (by rw [hh]; exact h3)
        (by rw [hh]; exact h4)).trans ?_
      rw [headerRead_of_agree hm (by omega), hh, lsbRead_of_agree hm (by omega)]
      rfl

/-- EMBED over both covers: the same outcome, and the same elements below CLEN. -/
theorem execEmbed_of_agree :
    ∃ t u, execEmbed s = .next t ∧ execEmbed { s with c := m } = .next u ∧ u = { t with c := u.c } ∧
      ∀ k < s.clen.toNat, Memory.read u.c k = Memory.read t.c k := by
  rcases execEmbed_cases s with ⟨h, e⟩ | ⟨h1, h2, h3, e⟩ | ⟨h1, h2, h3, e⟩
  · exact ⟨_, _, e, execEmbed_resource (s := { s with c := m }) h, rfl, hm⟩
  · exact ⟨_, _, e, execEmbed_capacity (s := { s with c := m }) h1 h2 h3, rfl, hm⟩
  · refine ⟨_, _, e, execEmbed_ok (s := { s with c := m }) h1 h2 h3, rfl, fun k hk => ?_⟩
    have hpeek : State.peek { s with c := m } .c k = s.peek .c k := State.peek_congr (hm k hk) rfl
    rw [State.complete_c, State.complete_c, State.embedWrite_read, State.embedWrite_read]
    exact if_congr Iff.rfl (congrArg (some <| withLsb · _) hpeek) (hm k hk)

end twoCovers

/-! ## STATUS and the invariant -/

/-- STATUS agrees with the registers it speaks of, whatever becomes of the others; the host may be released when
DONE = 1 (spec R187). -/
theorem State.StatusOk.of_eq {s t : State} (h : s.StatusOk) (hstatus : t.status = s.status) (hcmd : t.cmd = s.cmd)
    (hreq : t.req = s.req) (havail : t.avail = s.avail) (hplen : t.plen = s.plen) (hcfg : t.cfg = s.cfg)
    (hawait : t.awaiting = s.awaiting ∨ t.awaiting = (s.awaiting && !s.status.doneBit)) : t.StatusOk := by
  unfold State.StatusOk State.CmdLegal at *
  rw [hstatus, hcmd, hreq, havail, hplen, hcfg]
  cases hs : s.status with
  | idle => simp_all [Status.doneBit]
  | busy => simp_all [Status.doneBit]
  | done e => cases e <;> simpa only [hs] using h

theorem State.CmdLegal.of_cmd {s t : State} (h : s.CmdLegal) (e : t.cmd = s.cmd) : t.CmdLegal := by
  rw [State.CmdLegal, e]
  exact h

theorem State.complete_ok_statusOk {s : State} (h : s.CmdLegal) (hle : s.req.toNat ≤ s.avail.toNat) :
    (s.complete .ok).StatusOk := ⟨h, hle⟩

theorem State.setCounts_zero_statusOk {s : State} (h : s.CmdLegal) :
    ((s.setCounts 0 0).complete .resource).StatusOk := ⟨h, .inl ⟨rfl, rfl⟩⟩

/-- The counts of a failed capacity check: REQ exceeds AVAIL also where it is saturated (spec R30, R151). -/
theorem State.setCounts_capacity_statusOk {s : State} {n : Nat} (h : s.CmdLegal)
    (hc : s.clen.toNat ≤ s.cfg.coverCap.val) (hn : s.clen.toNat < n) :
    ((s.setCounts n s.clen.toNat).complete .capacity).StatusOk := by
  refine ⟨h, ?_⟩
  have := s.cfg.coverCap.isLt
  simp only [State.complete_avail, State.complete_req, State.setCounts_avail, State.setCounts_req, BitVec.toNat_ofNat]
  omega

/-- The counts of a capacity check that is met. -/
theorem State.setCounts_req_le_avail (s : State) {n : Nat} (hn : n ≤ s.clen.toNat) :
    (s.setCounts n s.clen.toNat).req.toNat ≤ (s.setCounts n s.clen.toNat).avail.toNat := by
  have := s.clen.isLt
  simp only [State.setCounts_avail, State.setCounts_req, BitVec.toNat_ofNat]
  omega

theorem State.headerRead_req_le_avail {s : State} (h : 8 * (s.coverHeader + 4) ≤ s.clen.toNat) :
    s.headerRead.req.toNat ≤ s.headerRead.avail.toNat := by
  rw [State.headerRead_req, State.headerRead_avail]
  exact h

theorem State.headerRead_req_eq (s : State) : s.headerRead.req.toNat = 8 * (s.headerRead.plen.toNat + 4) := by
  rw [State.headerRead_req, State.headerRead_plen]

theorem cmd_of_decode_parse {b : Byte} {rest : List Byte} (h : decode [b] = .ok (.parse, rest)) : b = 4#8 :=
  (List.cons.inj (decode_ok h).2).1.symm

/-- The completion of each command leaves STATUS in agreement with the other registers (spec R150 to R153). -/
theorem exec_statusOk {i : Instr} {s t : State} (hd : decode [s.cmd] = .ok (i, [])) (h : exec i s = .next t) :
    t.StatusOk := by
  have hc : s.CmdLegal := ⟨i, [], hd⟩
  cases i with
  | embed =>
    rcases execEmbed_cases s with ⟨-, e⟩ | ⟨h1, -, h3, e⟩ | ⟨-, -, h3, e⟩ <;> cases h.symm.trans e
    · exact State.setCounts_zero_statusOk hc
    · exact State.setCounts_capacity_statusOk hc h1 h3
    · exact State.complete_ok_statusOk (hc.of_cmd rfl) (s.setCounts_req_le_avail h3)
  | extract =>
    rcases execExtract_cases s with ⟨-, e⟩ | ⟨h1, -, h3, e⟩ | ⟨-, -, h3, e⟩ <;> cases h.symm.trans e
    · exact State.setCounts_zero_statusOk hc
    · exact State.setCounts_capacity_statusOk hc h1 h3
    · exact State.complete_ok_statusOk (hc.of_cmd rfl) (s.setCounts_req_le_avail h3)
  | marshal =>
    rcases execMarshal_cases s with ⟨-, e⟩ | ⟨-, -, e⟩ <;> cases h.symm.trans e
    · exact State.setCounts_zero_statusOk hc
    · exact State.complete_ok_statusOk (hc.of_cmd (by simp)) (by simp)
  | parse =>
    rcases execParse_cases s with ⟨-, e⟩ | ⟨h1, h2, e⟩ | ⟨-, -, h3, e⟩ | ⟨-, h2, h3, e⟩ | ⟨-, h2, h3, e⟩ |
      ⟨-, h2, -, -, e⟩ <;> cases h.symm.trans e
    · exact State.setCounts_zero_statusOk hc
    · exact State.setCounts_capacity_statusOk hc h1 h2
    · exact ⟨hc, by rw [State.complete_avail, State.complete_req, State.headerRead_req, State.headerRead_avail]; exact h3⟩
    · exact ⟨cmd_of_decode_parse hd, by rw [State.complete_plen, State.headerRead_plen]; exact h3, s.headerRead_req_eq,
        State.headerRead_req_le_avail h2⟩
    · refine ⟨hc, .inr ⟨cmd_of_decode_parse hd, ?_, s.headerRead_req_eq, State.headerRead_req_le_avail h2⟩⟩
      have hcfg : s.headerRead.cfg = s.cfg := rfl
      rw [State.complete_plen, State.complete_cfg, State.headerRead_plen, hcfg]
      omega
    · exact State.complete_ok_statusOk (hc.of_cmd (by simp [State.headerRead]))
        (by simpa using State.headerRead_req_le_avail h2)

/-- AVAIL is 0 or a CLEN that was found to fit the cover memory (spec R31, R153). -/
theorem exec_avail {i : Instr} {s t : State} (h : exec i s = .next t) :
    t.avail = 0#64 ∨ (t.avail = s.clen ∧ s.clen.toNat ≤ s.cfg.coverCap.val) := by
  cases i with
  | embed =>
    rcases execEmbed_cases s with ⟨-, e⟩ | ⟨h1, -, -, e⟩ | ⟨h1, -, -, e⟩ <;> cases h.symm.trans e
    · exact .inl rfl
    all_goals exact .inr ⟨by simp, h1⟩
  | extract =>
    rcases execExtract_cases s with ⟨-, e⟩ | ⟨h1, -, -, e⟩ | ⟨h1, -, -, e⟩ <;> cases h.symm.trans e
    · exact .inl rfl
    all_goals exact .inr ⟨by simp, h1⟩
  | marshal => rcases execMarshal_cases s with ⟨-, e⟩ | ⟨-, -, e⟩ <;> cases h.symm.trans e <;> simp
  | parse =>
    rcases execParse_cases s with ⟨-, e⟩ | ⟨h1, -, e⟩ | ⟨h1, -, -, e⟩ | ⟨h1, -, -, e⟩ | ⟨h1, -, -, e⟩ |
      ⟨h1, -, -, -, e⟩ <;> cases h.symm.trans e
    · exact .inl rfl
    all_goals exact .inr ⟨by simp [State.headerRead], h1⟩

/-- Every completion of a state with good spaces meets the invariant, whatever STATUS said before. -/
theorem completeInFlight_keeps_inv {s t : State} (hs : s.SpacesOk) (h : completeInFlight s = .next t) : t.Inv := by
  refine ⟨completeInFlight_spaces hs h, ?_, ?_⟩ <;>
    rcases completeInFlight_eq_next h with ⟨i, hd, hi⟩ | ⟨⟨e, hd⟩, rfl⟩
  · rw [completeInFlight_cfg h]
    rcases exec_avail hi with ha | ⟨ha, hle⟩
    · rw [ha]; exact Nat.zero_le _
    · rw [ha]; exact hle
  · exact Nat.zero_le _
  · exact exec_statusOk hd hi
  · refine ⟨fun ⟨i, rest, hl⟩ => ?_, rfl, rfl⟩
    cases hl.symm.trans hd

/-- Reset registers over good spaces meet the invariant (spec R44). -/
theorem State.resetRegisters_inv {s : State} (hs : s.SpacesOk) : s.resetRegisters.Inv :=
  ⟨hs.of_eq (fun sp => s.mem_resetRegisters sp) rfl, Nat.zero_le _, rfl, rfl, rfl, rfl, rfl⟩

theorem State.warmReset_inv {s : State} (hs : s.SpacesOk) : s.warmReset.Inv := by
  rcases s.warmReset_cases with ⟨-, e⟩ | ⟨-, t, ht, e⟩ <;> rw [e]
  · exact State.resetRegisters_inv hs
  · exact State.resetRegisters_inv ((completeInFlight_spaces hs ht).cutSpaces (completeInFlight_cfg ht))

theorem State.powerOnReset_inv (s : State) : s.powerOnReset.Inv :=
  ⟨(State.resetWith_spaces s.cfg).of_eq (fun sp => by cases sp <;> rfl) rfl, Nat.zero_le _, rfl, rfl, rfl, rfl, rfl⟩

/-- The fields that the invariant does not speak of may change. -/
theorem State.Inv.quiet {s : State} (h : s.Inv) (ts : List Turn) (rs : List Word) {b : Bool} (d : Nat)
    (hb : b = s.awaiting ∨ b = (s.awaiting && !s.status.doneBit)) :
    State.Inv { s with turns := ts, reads := rs, awaiting := b, draws := d } :=
  ⟨h.spaces.of_eq (fun sp => by cases sp <;> rfl) rfl, h.avail_le,
    h.status.of_eq rfl rfl rfl rfl rfl rfl hb⟩

theorem State.Inv.turns {s : State} (h : s.Inv) (ts : List Turn) : State.Inv { s with turns := ts } :=
  h.quiet ts s.reads s.draws (.inl rfl)

/-- An issue sets STATUS to busy and the host awaits DONE; the other registers are none that the invariant speaks of. -/
theorem State.Inv.writeReg {s : State} (h : s.Inv) (n v : Nat) : (s.writeReg n v).Inv := by
  refine ⟨h.spaces.of_eq (fun sp => s.mem_writeReg n v sp) (s.writeReg_cfg n v), ?_, ?_⟩
  · rw [State.writeReg_avail, State.writeReg_cfg]
    exact h.avail_le
  · rcases s.writeReg_cases n v with ⟨-, e⟩ | ⟨-, x, e⟩ | ⟨-, x, e⟩ | ⟨-, x, e⟩ | ⟨-, x, e⟩ | ⟨-, x, e⟩ | e <;> rw [e]
    case inl => exact State.issue_awaiting s _
    all_goals exact h.status.of_eq rfl rfl rfl rfl rfl rfl (.inl rfl)

/-- A buffer write is one byte below the capacity of its space. -/
theorem State.Inv.writeByte {s : State} (h : s.Inv) (n k : Nat) (v : Byte) : (s.writeByte n k v).Inv := by
  rcases s.writeByte_cases n k v with e | ⟨sp, -, hk, e⟩ <;> rw [e]
  · exact h
  · exact ⟨h.spaces.memWrite hk, by simpa using h.avail_le,
      h.status.of_eq (by simp) (by simp) (by simp) (by simp) (by simp) (by simp) (by simp)⟩

theorem step_keeps_inv {s t : State} (hs : s.Inv) (h : step s = .next t) : t.Inv := by
  cases step_kind h with
  | completion ts busy completes => exact completeInFlight_keeps_inv (hs.turns ts).spaces completes
  | registerWrite n v ts turn state => rw [state]; exact (hs.turns ts).writeReg n v
  | bufferWrite n k v ts turn state => rw [state]; exact (hs.turns ts).writeByte n k v
  | warmReset ts turn state => rw [state]; exact State.warmReset_inv (hs.turns ts).spaces
  | powerOnReset ts turn state => rw [state]; exact State.powerOnReset_inv _
  | quiet ts rs b d state release => rw [state]; exact hs.quiet ts rs d release

/-! ## The register port (spec R33) -/

theorem step_writeReg {s : State} {n v : Nat} {ts : List Turn} (hl : s.locked = false)
    (h : s.turns = .host (.writeReg n v) :: ts) : step s = .next (State.writeReg { s with turns := ts } n v) := by
  have hl' : State.locked { s with turns := ts } = false := hl
  rw [step_cons h]
  simp [runTurn, hostAccess, hl']

/-- A register read, of STATUS or another: an unlocked host awaits nothing, so it has nothing to be released from. -/
theorem step_readReg {s : State} {n : Nat} {ts : List Turn} (hl : s.locked = false)
    (h : s.turns = .host (.readReg n) :: ts) :
    step s = .next { s with turns := ts, reads := s.regValue n :: s.reads } := by
  have hl' : State.locked { s with turns := ts } = false := hl
  have ha : s.awaiting = false := (State.unlocked hl).1
  rw [step_cons h]
  by_cases hn : n = 1
  · subst hn
    simp [runTurn, hostAccess, State.readStatus, State.noteRead, State.regValue, ha]
  · simp only [runTurn, hostAccess, hl', Access.readReg.injEq, hn, if_false]
    rfl

theorem State.regValue_unknown (s : State) {n : Nat} (h : 9 < n) : s.regValue n = 0#64 := by
  obtain ⟨k, rfl⟩ := Nat.exists_eq_add_of_le' h
  rfl

end Sys2Proof.Machine

namespace Sys2Proof.Proofs

open Sys2Proof.Machine

/-- Settles O48, by the kinds of step: a completion meets the invariant whatever STATUS said before, a reset meets it
outright, and a write of the host or a quiet step leaves what the invariant speaks of. -/
theorem everyStepKeepsTheInvariant : Obligations.EveryStepKeepsTheInvariant :=
  fun _ _ hs h => step_keeps_inv hs h

/-- Settles O42, by the kinds of step: of the register writes only that to CMD reaches STATUS. -/
theorem statusIsWrittenOnlyAtIssueCompletionReset : Obligations.StatusIsWrittenOnlyAtIssueCompletionReset := by
  intro s t h hne
  cases step_kind h with
  | completion ts busy completes => exact .inr (.inl ⟨busy, completeInFlight_done completes⟩)
  | registerWrite n v ts turn state =>
    subst state
    obtain ⟨hstatus, -⟩ := State.writeReg_changes { s with turns := ts } n v
    obtain rfl := hstatus hne
    exact .inl ⟨v, ts, turn, rfl⟩
  | bufferWrite n k v ts turn state => rw [state, State.writeByte_eq] at hne; exact absurd rfl hne
  | warmReset ts turn state => exact .inr (.inr ⟨resetNext_warm turn, by rw [state, State.warmReset_status]⟩)
  | powerOnReset ts turn state => exact .inr (.inr ⟨resetNext_powerOn turn, by rw [state]; rfl⟩)
  | quiet ts rs b d state release => rw [state] at hne; exact absurd rfl hne

/-- Settles O50, by the kinds of step: no completion writes an operand register, and each answers to one register
number of the host's writes. -/
theorem operandRegistersBelongToTheHost : Obligations.OperandRegistersBelongToTheHost := by
  intro s t h
  cases step_kind h with
  | completion ts busy completes =>
    obtain ⟨hclen, hpos, hnbytes⟩ := completeInFlight_operands completes
    exact ⟨fun hne => absurd hclen hne, fun hne => absurd hpos hne, fun hne => absurd hnbytes hne⟩
  | registerWrite n v ts turn state =>
    subst state
    obtain ⟨-, hclen, hpos, hnbytes⟩ := State.writeReg_changes { s with turns := ts } n v
    refine ⟨fun hne => .inl ?_, fun hne => .inl ?_, fun hne => .inl ?_⟩
    · obtain rfl := hclen hne
      exact ⟨v, ts, turn⟩
    · obtain rfl := hpos hne
      exact ⟨v, ts, turn⟩
    · obtain rfl := hnbytes hne
      exact ⟨v, ts, turn⟩
  | bufferWrite n k v ts turn state =>
    rw [state, State.writeByte_eq]
    exact ⟨fun hne => absurd rfl hne, fun hne => absurd rfl hne, fun hne => absurd rfl hne⟩
  | warmReset ts turn state =>
    have hr := resetNext_warm turn
    exact ⟨fun _ => .inr hr, fun _ => .inr hr, fun _ => .inr hr⟩
  | powerOnReset ts turn state =>
    have hr := resetNext_powerOn turn
    exact ⟨fun _ => .inr hr, fun _ => .inr hr, fun _ => .inr hr⟩
  | quiet ts rs b d state release =>
    rw [state]
    exact ⟨fun hne => absurd rfl hne, fun hne => absurd rfl hne, fun hne => absurd rfl hne⟩

/-- Settles O51, by the kinds of step: of the completions only a PARSE that has read the Header writes PLEN. -/
theorem plenIsWrittenOnlyByParse : Obligations.PlenIsWrittenOnlyByParse := by
  intro s t h hne
  cases step_kind h with
  | completion ts busy completes => exact .inl ⟨busy, (completeInFlight_plen completes).resolve_left hne⟩
  | registerWrite n v ts turn state => rw [state, State.writeReg_plen] at hne; exact absurd rfl hne
  | bufferWrite n k v ts turn state => rw [state, State.writeByte_eq] at hne; exact absurd rfl hne
  | warmReset ts turn state => exact .inr ⟨resetNext_warm turn, by rw [state, State.warmReset_plen]⟩
  | powerOnReset ts turn state => exact .inr ⟨resetNext_powerOn turn, by rw [state]; rfl⟩
  | quiet ts rs b d state release => rw [state] at hne; exact absurd rfl hne

/-- Settles O52, by the kinds of step: of the completions only EMBED writes the cover, below the frame's last bit. -/
theorem coverIsWrittenOnlyByEmbedAndHost : Obligations.CoverIsWrittenOnlyByEmbedAndHost := by
  intro s t a h hne
  cases step_kind h with
  | completion ts busy completes => exact .inl ⟨busy, (completeInFlight_cover completes a).resolve_left hne⟩
  | registerWrite n v ts turn state =>
    rw [state, ← State.mem_c, State.mem_writeReg] at hne
    exact absurd rfl hne
  | bufferWrite n k v ts turn state =>
    subst state
    obtain ⟨rfl, rfl⟩ := State.writeByte_cover hne
    exact .inr (.inl ⟨v, ts, turn⟩)
  | warmReset ts turn state => exact .inr (.inr (resetNext_warm turn))
  | powerOnReset ts turn state => exact .inr (.inr (resetNext_powerOn turn))
  | quiet ts rs b d state release => rw [state] at hne; exact absurd rfl hne

/-- Settles O53: EMBED writes below CLEN what it reads below CLEN; the other commands leave the cover alone, and what
they read of it lies below CLEN. -/
theorem commandsIgnoreTheCoverBeyondClen : Obligations.CommandsIgnoreTheCoverBeyondClen := by
  intro i s m hm
  by_cases hi : i = .embed
  · subst hi
    obtain ⟨t, u, ht, hu, heq, hbelow⟩ := execEmbed_of_agree hm
    refine ⟨t, u, ht, hu, heq, hbelow, fun k hk => ?_, fun k hk => ?_⟩
    · exact (execEmbed_c_read ht k).resolve_right fun hr => Nat.not_lt.mpr hk hr.2
    · exact (execEmbed_c_read hu k).resolve_right fun hr => Nat.not_lt.mpr hk hr.2
  · obtain ⟨t, ht, hu⟩ := exec_of_agree hm hi
    have hc : t.c = s.c := exec_c hi ht
    exact ⟨t, _, ht, hu, rfl, fun k hk => by rw [hc]; exact hm k hk, fun k _ => by rw [hc], fun k _ => rfl⟩

/-- Settles O16: the write's state, register by register. -/
theorem registerPortWrites : Obligations.RegisterPortWrites := by
  intro s n v ts hl hts
  have hstep := step_writeReg hl hts
  refine ⟨?_, ?_, ?_, ?_, ?_, ?_, fun hn => ?_⟩
  · rintro rfl
    exact ⟨_, hstep, BitVec.toNat_ofNat v 8⟩
  iterate 5
    · rintro rfl
      exact ⟨BitVec.ofNat 64 v, BitVec.toNat_ofNat v 64, hstep⟩
  · rw [hstep, State.writeReg_ignored _ v hn]

/-- Settles O17: the read's state, and the value register by register. -/
theorem registerPortReads : Obligations.RegisterPortReads := by
  intro s n ts hl hts
  refine ⟨s.regValue n, step_readReg hl hts, ?_, ?_, ?_, ?_, ?_, ?_, ?_, ?_, ?_, ?_, s.regValue_unknown⟩ <;> rintro rfl
  · exact BitVec.toNat_setWidth_of_le (by decide)
  · exact BitVec.toNat_setWidth_of_le (by decide)
  iterate 5
    · rfl
  · exact BitVec.toNat_setWidth_of_le (by decide)
  · rfl
  · rfl

/-- Settles O19, register by register and space by space. -/
theorem resetStateValues : Obligations.ResetStateValues :=
  ⟨fun _ => ⟨⟨rfl, rfl, rfl, rfl, rfl, rfl, rfl, rfl, rfl, rfl, rfl⟩, fun sp _ => by cases sp <;> rfl⟩, rfl⟩

/-- Settles O41, status by status and code by code. -/
theorem statusByteTakesSevenValues : Obligations.StatusByteTakesSevenValues := by
  refine ⟨fun t => ?_, rfl, rfl, rfl, rfl, rfl, rfl, rfl⟩
  cases t with
  | idle => decide
  | busy => decide
  | done e => cases e <;> decide

/-- Settles O47: no byte is listed after reset, and STATUS is idle with the reset values it asks for. -/
theorem resetMeetsTheInvariant : Obligations.ResetMeetsTheInvariant :=
  fun cfg => ⟨State.resetWith_spaces cfg, Nat.zero_le _, rfl, rfl, rfl, rfl, rfl⟩

end Sys2Proof.Proofs
end

section
/-! SUPPORT. The buffer port below and beyond a capacity, and PARSE over two covers with the same bits 0. -/

namespace Sys2Proof.Machine

/-! ## Writes seen through reads (spec R13) -/

/-- A write of one byte is read at its index alone. -/
theorem Memory.read_write_singleton (m : Memory) (k : Nat) (v : Byte) (a : Nat) :
    Memory.read (m.write k [v]) a = if a = k then some v else Memory.read m a := by
  by_cases h : a = k
  · subst h; exact (Memory.read_write_inside (bytes := [v]) Nat.one_pos).trans (if_pos rfl).symm
  · rw [if_neg h, Memory.read_write_outside (by rw [List.length_singleton]; omega)]

/-- Within the bytes written a read does not depend on what was written over. -/
theorem Memory.read_write_congr {m n : Memory} {bytes : List Byte} {j : Nat} (h : j < bytes.length) :
    Memory.read (m.write 0 bytes) j = Memory.read (n.write 0 bytes) j := by
  rw [Memory.read_write, Memory.read_write, if_pos (by omega), if_pos (by omega)]

/-! ## The buffer port (spec R70) -/

theorem State.locate_of_lt {s : State} {sp : Space} {k : Nat} (h : k < Config.capacity s.cfg sp) :
    s.locate sp.number k = some sp := by
  simp only [State.locate, Space.ofNumber_number, if_pos h]

theorem State.locate_eq_none {s : State} {n k : Nat} (h : ∀ sp : Space, n = sp.number → Config.capacity s.cfg sp ≤ k) :
    s.locate n k = none := by
  unfold State.locate
  cases hn : Space.ofNumber n with
  | none => rfl
  | some sp => exact if_neg (Nat.not_lt.mpr (h sp (Space.ofNumber_some hn)))

theorem State.writeByte_of_locate {s : State} {sp : Space} {n k : Nat} (h : s.locate n k = some sp) (v : Byte) :
    s.writeByte n k v = s.memWrite sp k [v] := by
  simp only [State.writeByte, h]

theorem State.writeByte_of_locate_none {s : State} {n k : Nat} (h : s.locate n k = none) (v : Byte) :
    s.writeByte n k v = s := by
  simp only [State.writeByte, h]

/-- A buffer write below the capacity replaces the one byte of the one space. -/
theorem State.read_writeByte {s : State} {sp : Space} {k : Nat} (h : k < Config.capacity s.cfg sp) (v : Byte)
    (sq : Space) (a : Nat) : Memory.read ((s.writeByte sp.number k v).mem sq) a =
      if sq = sp ∧ a = k then some v else Memory.read (s.mem sq) a := by
  rw [State.writeByte_of_locate (State.locate_of_lt h), State.mem_memWrite]
  by_cases hq : sq = sp
  · subst hq
    simp only [if_true, true_and, Memory.read_write_singleton]
  · rw [if_neg hq, if_neg (fun hc => hq hc.1)]

theorem State.bufferValue_of_locate {s : State} {sp : Space} {n k : Nat} (h : s.locate n k = some sp) :
    s.bufferValue n k = s.peek sp k := by
  simp only [State.bufferValue, h]

theorem State.bufferValue_of_locate_none {s : State} {n k : Nat} (h : s.locate n k = none) :
    s.bufferValue n k = 0#8 := by
  simp only [State.bufferValue, h]

theorem step_writeByte {s : State} {n k : Nat} {v : Byte} {ts : List Turn} (hl : s.locked = false)
    (h : s.turns = .host (.writeByte n k v) :: ts) : step s = .next (State.writeByte { s with turns := ts } n k v) := by
  have hl' : State.locked { s with turns := ts } = false := hl
  rw [step_cons h]
  simp [runTurn, hostAccess, hl']

theorem step_readByte {s : State} {n k : Nat} {ts : List Turn} (hl : s.locked = false)
    (h : s.turns = .host (.readByte n k) :: ts) :
    step s = .next
      { s with turns := ts, reads := (s.bufferValue n k).setWidth 64 :: s.reads, draws := s.draws + 1 } := by
  have hl' : State.locked { s with turns := ts } = false := hl
  rw [step_cons h]
  simp only [runTurn, hostAccess, hl']
  rfl

/-! ## What PARSE records and writes (spec R136) -/

/-- PLEN and the counts depend on CLEN and the Header alone. -/
theorem State.headerRead_congr {s r : State} (hclen : r.clen = s.clen) (hheader : r.coverHeader = s.coverHeader) :
    r.headerRead.req = s.headerRead.req ∧ r.headerRead.avail = s.headerRead.avail ∧
      r.headerRead.plen = s.headerRead.plen := by
  simp [State.headerRead, hclen, hheader]

/-- The fields depend on the body alone, whatever the spaces held. -/
theorem State.splitBody_fields_congr (s r : State) {body : List Byte} (h : 44 ≤ body.length) :
    (∀ j < 16, Memory.read (r.splitBody body).salt j = Memory.read (s.splitBody body).salt j) ∧
    (∀ j < 12, Memory.read (r.splitBody body).nonce j = Memory.read (s.splitBody body).nonce j) ∧
    (∀ j < 16, Memory.read (r.splitBody body).tag j = Memory.read (s.splitBody body).tag j) ∧
    ∀ j < (s.splitBody body).ctlen.toNat,
      Memory.read (r.splitBody body).ct j = Memory.read (s.splitBody body).ct j := by
  refine ⟨fun j hj => ?_, fun j hj => ?_, fun j hj => ?_, fun j hj => ?_⟩
  · rw [State.splitBody_salt, State.splitBody_salt]
    exact Memory.read_write_congr (by rw [List.length_take]; omega)
  · rw [State.splitBody_nonce, State.splitBody_nonce]
    exact Memory.read_write_congr (by rw [List.length_take, List.length_drop]; omega)
  · rw [State.splitBody_tag, State.splitBody_tag]
    exact Memory.read_write_congr (by rw [List.length_take, List.length_drop]; omega)
  · rw [State.splitBody_ct, State.splitBody_ct]
    rw [State.splitBody_ctlen, BitVec.toNat_ofNat] at hj
    exact Memory.read_write_congr (by rw [List.length_drop]; exact hj.trans_le (Nat.mod_le _ _))

end Sys2Proof.Machine

namespace Sys2Proof.Proofs

open Sys2Proof.Machine

/-- Settles O18: below the capacity the access finds its space and is a write or read of one byte there; beyond it the
access finds none. -/
theorem bufferPortRespectsCapacities : Obligations.BufferPortRespectsCapacities := by
  intro s n k ts hl
  refine ⟨fun sp v hn hk hts => ?_, fun sp hn hk hts => ?_, fun hout => ?_⟩
  · subst hn
    refine ⟨_, step_writeByte hl hts, State.writeByte_eq _ _ _ _, fun sq a => ?_⟩
    exact State.read_writeByte (s := { s with turns := ts }) hk v sq a
  · subst hn
    refine ⟨_, step_readByte hl hts, fun v hv => ?_⟩
    rw [State.bufferValue_of_locate (State.locate_of_lt hk), State.peek_of_read hv]
  · have hnone : s.locate n k = none := State.locate_eq_none hout
    refine ⟨fun v hts => ?_, fun hts => ?_⟩
    · rw [step_writeByte hl hts, State.writeByte_of_locate_none (s := { s with turns := ts }) hnone]
    · rw [step_readByte hl hts, State.bufferValue_of_locate_none hnone]
      rfl

/-- Settles O37, by the outcomes of PARSE: the comparisons and the counts speak of CLEN, the capacities and the Header, the
fields are written from the body, and Header and body are read from bits 0 below CLEN. -/
theorem parseSeesOnlyCoverBits : Obligations.ParseSeesOnlyCoverBits := by
  intro s r hcfg hclen hlsb
  have hheader (h : 32 ≤ s.clen.toNat) : r.coverHeader = s.coverHeader :=
    State.coverHeader_congr fun k hk => hlsb k (by omega)
  rcases execParse_cases s with ⟨h1, e⟩ | ⟨h1, h2, e⟩ | ⟨h1, h2, h3, e⟩ | ⟨h1, h2, h3, e⟩ | ⟨h1, h2, h3, e⟩ |
    ⟨h1, h2, h3, h4, e⟩
  · refine ⟨_, _, e, execParse_tooLong (by rwa [hcfg, hclen]), rfl, rfl, rfl, fun _ hle => ?_, nofun⟩
    omega
  · refine ⟨_, _, e, execParse_noHeader (by rwa [hcfg, hclen]) (by rwa [hclen]), rfl, rfl, ?_, fun hle => ?_, nofun⟩
    · simp only [State.complete_avail, State.setCounts_avail, hclen]
    · omega
  all_goals
    have hh : r.coverHeader = s.coverHeader := hheader (by omega)
    obtain ⟨hreq, havail, hplen⟩ := State.headerRead_congr hclen hh
    rw [← hcfg, ← hclen] at h1
  · rw [← hclen, ← hh] at h3
    exact ⟨_, _, e, execParse_capacity h1 (by rwa [hclen]) h3, rfl, hreq, havail, fun _ _ => hplen, nofun⟩
  · rw [← hclen, ← hh] at h2
    exact ⟨_, _, e, execParse_format h1 h2 (by rwa [hh]), rfl, hreq, havail, fun _ _ => hplen, nofun⟩
  · rw [← hclen, ← hh] at h2
    exact ⟨_, _, e, execParse_tooBig h1 h2 (by rwa [hcfg, hh]), rfl, hreq, havail, fun _ _ => hplen, nofun⟩
  · have hbody : r.lsbRead 32 r.coverHeader = s.lsbRead 32 s.coverHeader := by
      rw [hh]
      exact State.lsbRead_congr fun k hk => hlsb _ (by omega)
    have hr := execParse_ok h1 (by rwa [hclen, hh]) (by rwa [hh]) (by rwa [hcfg, hh])
    rw [hbody] at hr
    have hfields := State.splitBody_fields_congr s.headerRead r.headerRead
      (body := s.lsbRead 32 s.coverHeader) (by rwa [State.lsbRead_length])
    refine ⟨_, _, e, hr, rfl, ?_, ?_, fun _ _ => ?_, fun _ => ⟨?_, hfields⟩⟩
    · simpa using hreq
    · simpa using havail
    · simpa using hplen
    · simp

end Sys2Proof.Proofs
end

section
/-! SUPPORT. Decoding past the first byte, the Header bit by bit, a turn of the engine and a refused turn of the host,
and the turns that a busy engine needs. -/

namespace Sys2Proof.Machine

/-! ## Decoding (spec R90, R91) -/

/-- Decoding reads one byte and passes the others on. -/
theorem decode_cons_ok {b : Byte} {bytes rest : List Byte} {i : Instr} (h : decode (b :: bytes) = .ok (i, rest)) :
    decode [b] = .ok (i, []) ∧ rest = bytes := by
  simp only [decode] at h ⊢
  cases hb : decodeByte b with
  | error e => rw [hb] at h; cases h
  | ok j => rw [hb] at h; cases h; exact ⟨rfl, rfl⟩

theorem decode_encode_append (i : Instr) (rest : List Byte) : decode (encode i ++ rest) = .ok (i, rest) := by
  cases i <;> rfl

theorem decode_eq_ok {bytes rest : List Byte} {i : Instr} (h : decode bytes = .ok (i, rest)) :
    bytes = encode i ++ rest := by
  cases bytes with
  | nil => cases h
  | cons b bytes =>
    obtain ⟨hb, rfl⟩ := decode_cons_ok h
    rw [(decode_ok hb).2, List.singleton_append]

theorem ofNat_mod_256 (w : Nat) : BitVec.ofNat 8 (w % 2 ^ 8) = BitVec.ofNat 8 w := by
  apply BitVec.eq_of_toNat_eq
  rw [BitVec.toNat_ofNat, BitVec.toNat_ofNat, Nat.mod_mod]

/-- The decoder reads the low byte of a table word, and no byte follows it. -/
theorem decodeTableWord_some {w : Nat} {i : Instr} (h : decodeTableWord 8 w = some i) :
    decode [BitVec.ofNat 8 w] = .ok (i, []) := by
  rw [decodeTableWord, ofNat_mod_256] at h
  split at h
  · rename_i hd
    cases h
    rw [hd, (decode_ok hd).1]
  · cases h

/-! ## The Header (spec R98) -/

/-- A number of `m + n` binary digits, most-significant first, in two parts. -/
theorem weightedSum_add (f : Nat → Nat) (m n : Nat) :
    ((List.range (m + n)).map (fun k => f k * 2 ^ (m + n - 1 - k))).sum =
      ((List.range m).map (fun k => f k * 2 ^ (m - 1 - k))).sum * 2 ^ n +
        ((List.range n).map (fun t => f (m + t) * 2 ^ (n - 1 - t))).sum := by
  rw [List.range_add, List.map_append, List.sum_append, List.map_map, ← List.sum_map_mul_right]
  congr 2
  · refine List.map_congr_left fun k hk => ?_
    have hk : k < m := List.mem_range.mp hk
    rw [Nat.mul_assoc, ← Nat.pow_add, show m + n - 1 - k = m - 1 - k + n by omega]
  · refine List.map_congr_left fun t _ => ?_
    rw [Function.comp_apply, show m + n - 1 - (m + t) = n - 1 - t by omega]

theorem State.coverHeader_eq_bytes (s : State) :
    s.coverHeader = (s.lsbByte 0).toNat * 2 ^ 24 + (s.lsbByte 8).toNat * 2 ^ 16 + (s.lsbByte 16).toNat * 2 ^ 8
      + (s.lsbByte 24).toNat :=
  be32_four _ _ _ _

/-! ## A turn of the engine (spec R105) -/

theorem engineTurn_busy {s : State} (h : s.status = .busy) : engineTurn s = completeInFlight s := if_pos h

theorem step_engine_busy {s : State} {ts : List Turn} (hb : s.status = .busy) (h : s.turns = .engine :: ts) :
    step s = completeInFlight { s with turns := ts } :=
  (step_cons h).trans (engineTurn_busy hb)

/-- A WAIT's busy polls are merged into the completion, and the WAIT stays pending (log 11). -/
theorem waitTurn_busy {s : State} (rest : List Turn) (h : s.status = .busy) :
    waitTurn rest s = completeInFlight { s with turns := .wait :: rest } := by
  simp only [waitTurn, h]

theorem step_wait_busy {s : State} {ts : List Turn} (hb : s.status = .busy) (h : s.turns = .wait :: ts) :
    step s = completeInFlight s :=
  ((step_cons h).trans (waitTurn_busy ts hb)).trans (congrArg completeInFlight (State.with_turns h))

theorem step_nil_busy {s : State} (hb : s.status = .busy) (h : s.turns = []) : step s = completeInFlight s :=
  (step_nil h).trans (engineTurn_busy hb)

/-! ## A turn of the host while a command is in flight (spec R187) -/

theorem step_readStatus {s : State} {ts : List Turn} (h : s.turns = .host (.readReg 1) :: ts) :
    step s = .next (State.readStatus { s with turns := ts }) :=
  step_cons h

theorem State.locked_of_busy {s : State} (h : s.status = .busy) : s.locked = true := by
  simp [State.locked, h, Status.busyBit]

theorem step_host_locked {s : State} {a : Access} {ts : List Turn} (hl : s.locked = true) (ha : a ≠ .readReg 1)
    (h : s.turns = .host a :: ts) : step s = .refused .hostAccessWhileBusy := by
  have hl' : State.locked { s with turns := ts } = true := hl
  rw [step_cons h]
  simp only [runTurn, hostAccess, ha, hl', if_true, if_false]

/-! ## A host that keeps to the access rule (spec R187) -/

/-- While a command is in flight a polite host only reads STATUS. -/
theorem polite_flight_host {a : Access} {ts : List Turn} (h : polite .flight (.host a :: ts) = true) :
    a = .readReg 1 ∧ polite .flight ts = true := by
  by_cases ha : a = .readReg 1
  · subst ha; exact ⟨rfl, h⟩
  · simp [polite, Phase.after] at h

/-- The turns of the engine and of reset are allowed in every phase, so a script cut short is polite. -/
theorem polite_filter_not_ofHost (p : Phase) (ts : List Turn) :
    polite p (ts.filter (fun t => !t.ofHost)) = true := by
  induction ts generalizing p with
  | nil => rfl
  | cons t ts ih => cases t <;> cases p <;> exact ih _

/-- A busy engine progresses under a polite host: a step ends the command, or takes at least one turn off the list and
leaves a polite one. -/
theorem step_polite_flight {s : State} (hb : s.status = .busy) (hp : polite .flight s.turns = true) :
    (∃ t, step s = .next t ∧ t.status ≠ .busy) ∨
    ∃ t, step s = .next t ∧ t.status = .busy ∧ polite .flight t.turns = true ∧ t.turns.length < s.turns.length := by
  have completes {u : State} (h : step s = completeInFlight u) : ∃ t, step s = .next t ∧ t.status ≠ .busy := by
    obtain ⟨t, e, ht, hs, -⟩ := completeInFlight_next u
    exact ⟨t, h.trans ht, by rw [hs]; nofun⟩
  cases hts : s.turns with
  | nil => exact .inl (completes (step_nil_busy hb hts))
  | cons turn ts =>
    rw [hts] at hp
    have hlt : ts.length < (turn :: ts).length := Nat.lt_succ_self _
    cases turn with
    | host a =>
      obtain ⟨rfl, hp⟩ := polite_flight_host hp
      exact .inr ⟨_, step_readStatus hts, hb, hp, hlt⟩
    | wait => exact .inl (completes (step_wait_busy hb hts))
    | stopOnError =>
      refine .inr ⟨_, step_cons hts, ?_⟩
      rcases State.stopOnError_cases { s with turns := ts } with e | e <;> rw [e]
      · exact ⟨hb, hp, hlt⟩
      · exact ⟨hb, polite_filter_not_ofHost .flight ts, (List.length_filter_le _ ts).trans_lt hlt⟩
    | engine => exact .inl (completes (step_engine_busy hb hts))
    | warmReset => exact .inl ⟨_, step_cons hts, by rw [State.warmReset_status]; nofun⟩
    | powerOnReset => exact .inl ⟨_, step_cons hts, nofun⟩

end Sys2Proof.Machine

namespace Sys2Proof.Proofs

open Sys2Proof.Machine

/-- Settles O7: the four bytes of the Header are numbers of eight bits each, and the number of the 32 bits splits into
them. -/
theorem headerFormula : Obligations.HeaderFormula := by
  intro s
  have hsplit := weightedSum_add (fun k => (s.peek .c k).toNat % 2)
  have h32 := hsplit 24 8
  have h24 := hsplit 16 8
  have h16 := hsplit 8 8
  simp only [Nat.reduceAdd, Nat.reduceSub] at h32 h24 h16
  rw [State.coverHeader_eq_bytes, h32, h24, h16]
  simp only [State.lsbByte_toNat, Nat.zero_add]
  omega

/-- Settles O11: the issue is unlocked, and the engine's turn finds no command in CMD. -/
theorem illegalByteEndsInErrIllegal : Obligations.IllegalByteEndsInErrIllegal := by
  intro s v ts hl hv hts
  have hd : decode [BitVec.ofNat 8 v] = .error (.illegalCode (BitVec.ofNat 8 v)) :=
    decode_illegal (hv.imp (fun h => BitVec.eq_of_toNat_eq h) (fun h => by rwa [BitVec.toNat_ofNat]))
  refine ⟨_, step_writeReg hl hts, rfl, ?_, rfl⟩
  exact (step_engine_busy rfl rfl).trans (completeInFlight_illegal hd)

/-- Settles O12: every outcome of every command is a completion that keeps the operands. -/
theorem everyCommandCompletes : Obligations.EveryCommandCompletes := by
  refine ⟨fun i s => ?_, fun s => ?_⟩
  · obtain ⟨t, e, ht, hs, -⟩ := exec_next i s
    exact ⟨t, e, ht, hs⟩
  · obtain ⟨t, e, ht, hs, -, kept⟩ := completeInFlight_next s
    exact ⟨t, e, ht, hs, kept⟩

/-- Settles O13, by induction on the number of turns listed: a step ends the command or leaves a shorter polite list. -/
theorem busyEngineFinishes : Obligations.BusyEngineFinishes := by
  intro s hb hp
  induction hk : s.turns.length using Nat.strong_induction_on generalizing s with
  | _ k ih =>
    subst hk
    rcases step_polite_flight hb hp with ⟨t, ht, hdone⟩ | ⟨t, ht, htb, htp, hlt⟩
    · exact ⟨1, t, Nat.succ_le_succ (Nat.zero_le _), run_succ 0 ht, hdone⟩
    · obtain ⟨n, u, hn, hu, hdone⟩ := ih _ hlt t htb htp rfl
      exact ⟨n + 1, u, by omega, (run_succ n ht).trans hu, hdone⟩

/-- Settles O1: each code's row, and for every other byte the end of the table. -/
theorem commandCodes : Obligations.CommandCodes := by
  refine ⟨rfl, rfl, rfl, rfl, fun b h1 h2 h3 h4 => ?_⟩
  rw [decode_single, if_neg h1, if_neg h2, if_neg h3, if_neg h4]

/-- Settles O2: a command is one byte, and decoding passes the others on. -/
theorem decodeAndEncodeAgree : Obligations.DecodeAndEncodeAgree :=
  ⟨fun i rest _ => decode_encode_append i rest, fun _ _ _ h => decode_eq_ok h⟩

/-- Settles O8: each of the three turns of a busy engine is the completion of what CMD decodes to. -/
theorem stepRunsTheCommandInFlight : Obligations.StepRunsTheCommandInFlight := by
  intro s ts i rest hb hd
  have completes : completeInFlight s = exec i s := completeInFlight_legal hd
  refine ⟨fun h => ?_, fun h => (step_wait_busy hb h).trans completes, fun h => (step_nil_busy hb h).trans completes⟩
  exact (step_engine_busy hb h).trans (completeInFlight_legal hd)

/-- Settles O9: the placed word is in flight with the engine's turn next, and only its low byte is read. -/
theorem issuedWordRunsNext : Obligations.IssuedWordRunsNext := by
  intro s w i h
  rw [State.withFetchWord, ofNat_mod_256]
  exact (step_engine_busy rfl rfl).trans (completeInFlight_legal (decodeTableWord_some h))

/-- Settles O10: an unlocked write to CMD is the issue, and a busy engine locks the host out. -/
theorem issueRaisesBusy : Obligations.IssueRaisesBusy := by
  intro s v ts hts
  have hne : Access.writeReg 0 v ≠ .readReg 1 := nofun
  exact ⟨fun hl => step_writeReg hl hts, fun hb => step_host_locked (State.locked_of_busy hb) hne hts⟩

end Sys2Proof.Proofs
end

section
/-! SUPPORT. The bit engine (spec R111 to R119): how EMBED and EXTRACT can end, what they leave alone, and what EMBED
wrote read back from the cover. -/

namespace Sys2Proof.Machine

/-! ## Reads of the cover and of the spaces -/

/-- A read of the cover splits at any byte (spec R119). -/
theorem State.lsbRead_add (s : State) (start a b : Nat) :
    s.lsbRead start (a + b) = s.lsbRead start a ++ s.lsbRead (start + 8 * a) b := by
  rw [← List.take_append_drop a (s.lsbRead start (a + b)), State.lsbRead_take, State.lsbRead_drop,
    Nat.min_eq_left (Nat.le_add_right a b), Nat.add_sub_cancel_left]

/-- A written byte reads alike in every state that has it, whatever the draw (spec R44). -/
theorem State.peek_eq_of_written {s t : State} {sp : Space} {i : Nat} (hmem : t.mem sp = s.mem sp)
    (hw : (Memory.read (s.mem sp) i).isSome) : t.peek sp i = s.peek sp i := by
  obtain ⟨v, hv⟩ := Option.isSome_iff_exists.mp hw
  rw [State.peek_of_read hv, State.peek_of_read (by rw [hmem, hv])]

theorem spaceKept_of_mem_eq {s t : State} {sp : Space} (h : t.mem sp = s.mem sp) : SpaceKept s t sp :=
  fun a => by rw [h]

/-- LsbWrite writes the cover and no other space (spec R14). -/
theorem State.mem_lsbWrite_of_ne (s : State) (bits : List Bool) {sp : Space} (h : sp ≠ .c) :
    (s.lsbWrite bits).mem sp = s.mem sp := by
  rw [State.lsbWrite, State.mem_memWrite, if_neg h]

/-- No command writes the capacities, CMD, CLEN, POS, NBYTES or what is the host's. -/
theorem exec_operandsKept {i : Instr} {s t : State} (h : exec i s = .next t) : OperandsKept s t := by
  obtain ⟨u, -, hu, -, -, kept⟩ := exec_next i s
  cases h.symm.trans hu
  exact kept

/-! ## EMBED -/

/-- An EMBED that has not succeeded leaves the cover; one that has met the three conditions of spec R111 and has put
the bits of the frame into it. -/
theorem execEmbed_outcome {s t : State} (h : execEmbed s = .next t) :
    (t.status ≠ .done .ok ∧ t.c = s.c) ∨
    (t.status = .done .ok ∧ s.clen.toNat ≤ s.cfg.coverCap.val ∧ s.flen.toNat ≤ s.cfg.frameCap.val ∧
      8 * s.flen.toNat ≤ s.clen.toNat ∧ ∀ i, Memory.read t.c i = if i < 8 * s.flen.toNat
        then some (withLsb (s.peek .c i) ((s.peek .f (i / 8)).getLsbD (7 - i % 8))) else Memory.read s.c i) := by
  rcases execEmbed_cases s with ⟨-, e⟩ | ⟨-, -, -, e⟩ | ⟨h1, h2, h3, -⟩
  · cases h.symm.trans e
    exact .inl ⟨nofun, rfl⟩
  · cases h.symm.trans e
    exact .inl ⟨nofun, rfl⟩
  · obtain ⟨u, hu, hok, -, -, hc, -⟩ := execEmbed_success h1 h2 h3
    cases h.symm.trans hu
    exact .inr ⟨hok, h1, h2, h3, hc⟩

/-- Whatever its outcome, EMBED writes no length, no PLEN and no space but C (spec R113). -/
theorem execEmbed_kept {s t : State} (h : execEmbed s = .next t) :
    t.flen = s.flen ∧ t.ctlen = s.ctlen ∧ t.plen = s.plen ∧ ∀ sp, sp ≠ .c → t.mem sp = s.mem sp := by
  rcases execEmbed_cases s with ⟨-, e⟩ | ⟨-, -, -, e⟩ | ⟨-, -, -, e⟩ <;> cases h.symm.trans e
  · exact ⟨rfl, rfl, rfl, fun sp _ => by simp⟩
  · exact ⟨rfl, rfl, rfl, fun sp _ => by simp⟩
  · refine ⟨rfl, rfl, rfl, fun sp hsp => ?_⟩
    rw [State.mem_complete, State.mem_lsbWrite_of_ne _ _ hsp, State.mem_setCounts]

section embedded
variable {s t : State} (h : execEmbed s = .next t) (hok : t.status = .done .ok)
include h hok

/-- Bit 0 of an element below `8 * FLEN` is the frame's bit of that number (spec R111). -/
theorem lsb_of_embedded {i : Nat} (hi : i < 8 * s.flen.toNat) :
    t.lsb i = (s.peek .f (i / 8)).getLsbD (7 - i % 8) := by
  obtain ⟨-, -, -, -, hc⟩ := (execEmbed_outcome h).resolve_left fun hn => hn.1 hok
  rw [State.lsb, State.peek_of_read (sp := .c) ((hc i).trans (if_pos hi)), withLsb_lsb]

theorem lsbByte_of_embedded {j : Nat} (hj : j < s.flen.toNat) : t.lsbByte (8 * j) = s.peek .f j := by
  refine State.lsbByte_eq fun k hk => ?_
  rw [lsb_of_embedded h hok (by omega), show (8 * j + k) / 8 = j by omega, show (8 * j + k) % 8 = k by omega]

/-- The frame reads back from any byte on (spec R115). -/
theorem lsbRead_of_embedded {a n : Nat} (ha : a + n ≤ s.flen.toNat) : t.lsbRead (8 * a) n = s.memRead .f a n := by
  refine List.map_congr_left fun j hj => ?_
  have hj : j < n := List.mem_range.mp hj
  rw [← Nat.mul_add]
  exact lsbByte_of_embedded h hok (by omega)

/-- EXTRACT of the whole frame gives the bytes that EMBED took from F (spec R115). -/
theorem extract_of_embedded :
    ∃ u, execExtract { t with pos := 0#64, nbytes := s.flen } = .next u ∧ u.status = .done .ok ∧ u.flen = s.flen ∧
      ∀ j < s.flen.toNat, Memory.read u.f j = some (s.peek .f j) := by
  obtain ⟨hcfg, -, hclen, -⟩ := exec_operandsKept (i := .embed) h
  obtain ⟨-, h1, h2, h3, -⟩ := (execEmbed_outcome h).resolve_left fun hn => hn.1 hok
  rw [← hcfg, ← hclen] at h1
  rw [← hcfg] at h2
  rw [← hclen, ← Nat.zero_add (8 * _)] at h3
  obtain ⟨u, hu, huok, -, -, hflen, hf, -⟩ :=
    execExtract_success (s := { t with pos := 0#64, nbytes := s.flen }) h1 h2 h3
  refine ⟨u, hu, huok, hflen, fun j hj => ?_⟩
  have hbyte : t.lsbByte (0 + 8 * j) = s.peek .f j := by rw [Nat.zero_add, lsbByte_of_embedded h hok hj]
  exact ((hf j).trans (if_pos hj)).trans (congrArg some hbyte)

/-- A second EMBED of a written frame replaces each bit 0 by itself (spec R115). -/
theorem embed_of_embedded (hw : ∀ j < s.flen.toNat, (Memory.read s.f j).isSome) :
    ∃ u, execEmbed t = .next u ∧ u.status = .done .ok ∧ ∀ sp, SpaceKept t u sp := by
  obtain ⟨hcfg, -, hclen, -⟩ := exec_operandsKept (i := .embed) h
  obtain ⟨hflen, -, -, hmem⟩ := execEmbed_kept h
  obtain ⟨-, h1, h2, h3, hc⟩ := (execEmbed_outcome h).resolve_left fun hn => hn.1 hok
  obtain ⟨u, hu, huok, -, -, huc, humem⟩ := execEmbed_success (s := t)
    (by rwa [hcfg, hclen]) (by rwa [hcfg, hflen]) (by rwa [hclen, hflen])
  refine ⟨u, hu, huok, fun sp => ?_⟩
  by_cases hsp : sp = .c
  · subst hsp
    intro i
    refine (huc i).trans ?_
    rw [hflen]
    rcases Nat.lt_or_ge i (8 * s.flen.toNat) with hi | hi
    · have hti := (hc i).trans (if_pos hi)
      have hbyte : t.peek .f (i / 8) = s.peek .f (i / 8) :=
        State.peek_eq_of_written (hmem .f nofun) (hw _ (by omega))
      rw [if_pos hi, hbyte, State.peek_of_read (sp := .c) hti, withLsb_withLsb, ← hti]
      rfl
    · exact if_neg (Nat.not_lt.mpr hi)
  · exact spaceKept_of_mem_eq (humem sp hsp)

end embedded

/-! ## EXTRACT -/

/-- An EXTRACT that has not succeeded leaves F and FLEN; one that has leaves F beyond NBYTES (spec R116). -/
theorem execExtract_outcome {s t : State} (h : execExtract s = .next t) :
    (t.status ≠ .done .ok ∧ t.flen = s.flen ∧ t.f = s.f) ∨
    (t.status = .done .ok ∧ ∀ j, s.nbytes.toNat ≤ j → Memory.read t.f j = Memory.read s.f j) := by
  rcases execExtract_cases s with ⟨-, e⟩ | ⟨-, -, -, e⟩ | ⟨h1, h2, h3, -⟩
  · cases h.symm.trans e
    exact .inl ⟨nofun, rfl, rfl⟩
  · cases h.symm.trans e
    exact .inl ⟨nofun, rfl, rfl⟩
  · obtain ⟨u, hu, hok, -, -, -, hf, -⟩ := execExtract_success h1 h2 h3
    cases h.symm.trans hu
    exact .inr ⟨hok, fun j hj => (hf j).trans (if_neg (Nat.not_lt.mpr hj))⟩

/-- Whatever its outcome, EXTRACT writes no CTLEN, no PLEN and no space but F (spec R118). -/
theorem execExtract_kept {s t : State} (h : execExtract s = .next t) :
    t.ctlen = s.ctlen ∧ t.plen = s.plen ∧ ∀ sp, sp ≠ .f → t.mem sp = s.mem sp := by
  rcases execExtract_cases s with ⟨-, e⟩ | ⟨-, -, -, e⟩ | ⟨-, -, -, e⟩ <;> cases h.symm.trans e
  · exact ⟨rfl, rfl, fun sp _ => by simp⟩
  · exact ⟨rfl, rfl, fun sp _ => by simp⟩
  · refine ⟨by simp, by simp, fun sp hsp => ?_⟩
    rw [State.mem_complete, State.mem_setFlen, State.mem_memWrite, if_neg hsp, State.mem_setCounts]

/-- The count of EXTRACT's capacity check, saturated at 2^64 - 1 (spec R117). -/
theorem saturatedCount (n : Nat) : (BitVec.ofNat 64 (min n (2 ^ 64 - 1))).toNat = min n (2 ^ 64 - 1) := by
  rw [BitVec.toNat_ofNat]
  omega

end Sys2Proof.Machine

namespace Sys2Proof.Proofs

open Sys2Proof.Machine

/-- Settles O6: the first part is what taking `a` bytes leaves, the second what dropping them leaves. -/
theorem lsbReadSplits : Obligations.LsbReadSplits :=
  State.lsbRead_add

/-- Settles O24: each outcome of EMBED by its conditions, and the element's new byte as spec R111 writes it. -/
theorem embedFollowsItsRule : Obligations.EmbedFollowsItsRule := by
  intro s
  refine ⟨fun h => ?_, fun h1 h2 h3 => ?_, fun h1 h2 h3 => ?_⟩
  · exact ⟨_, execEmbed_resource h, rfl, rfl, rfl, fun _ => rfl⟩
  · exact ⟨_, execEmbed_capacity h1 h2 h3, rfl, requiredCount (eight_flen_lt h2), by simp, fun _ => rfl⟩
  · obtain ⟨t, e, hok, hreq, havail, hc, -⟩ := execEmbed_success h1 h2 h3
    refine ⟨t, e, hok, hreq, havail, fun i hi => ?_, fun i hi => ?_⟩
    · rw [hc, if_pos hi, withLsb_eq]
    · rw [hc, if_neg (Nat.not_lt.mpr hi)]

/-- Settles O25: only the cover is written, only on success, and there only bit 0 of the elements below `8 * FLEN`. -/
theorem embedFrame : Obligations.EmbedFrame := by
  intro s t h
  obtain ⟨hflen, hctlen, hplen, hmem⟩ := execEmbed_kept h
  refine ⟨exec_operandsKept h, hflen, hctlen, hplen, fun sp hsp => spaceKept_of_mem_eq (hmem sp hsp), ?_⟩
  rcases execEmbed_outcome h with ⟨hne, hc⟩ | ⟨hok, -, -, -, hc⟩
  · exact ⟨fun _ _ _ => spaceKept_of_mem_eq hc, fun hok => absurd hok hne⟩
  · refine ⟨fun e he hs => ?_, fun _ => ⟨fun i hi => ?_, fun i hi => ?_⟩⟩
    · cases hok.symm.trans hs
      exact absurd rfl he
    · exact ⟨_, (hc i).trans (if_pos hi), fun k hk => withLsb_upper _ _ k (by omega)⟩
    · exact (hc i).trans (if_neg (Nat.not_lt.mpr hi))

/-- Settles O26: replacing bit 0 keeps the bits above it and moves the element by at most one. -/
theorem embedLaws : Obligations.EmbedLaws := by
  intro s h1 h2
  rcases Nat.lt_or_ge s.clen.toNat (8 * s.flen.toNat) with h3 | h3
  · exact ⟨_, execEmbed_capacity h1 h2 h3, iff_of_true rfl h3, fun _ _ => rfl, fun hfit => absurd h3 (by omega)⟩
  · obtain ⟨t, e, hok, -, -, hc, -⟩ := execEmbed_success h1 h2 h3
    refine ⟨t, e, iff_of_false (by rw [hok]; nofun) (by omega), fun hlt => absurd hlt (by omega), fun _ =>
      ⟨hok, fun i hi => ?_, fun i hi => ?_⟩⟩
    · exact ⟨_, (hc i).trans (if_pos hi), fun k hk => withLsb_upper _ _ k (by omega), withLsb_near _ _⟩
    · exact (hc i).trans (if_neg (Nat.not_lt.mpr hi))

/-- Settles O27: bits 0 of the cover are the frame's bits, so reads of the cover and EXTRACT give its bytes and a second
EMBED writes what is there. -/
theorem embedReadsBack : Obligations.EmbedReadsBack := by
  intro s t h hok
  refine ⟨?_, fun a ha => ?_, extract_of_embedded h hok, embed_of_embedded h hok⟩
  · exact lsbRead_of_embedded h hok (a := 0) (by omega)
  · exact lsbRead_of_embedded h hok (by omega)

/-- Settles O28: each outcome of EXTRACT by its conditions; the cover is no command's but EMBED's. -/
theorem extractFollowsItsRule : Obligations.ExtractFollowsItsRule := by
  intro s
  refine ⟨fun h => ?_, fun h1 h2 h3 => ?_, fun h1 h2 h3 => ?_, fun t h => ?_⟩
  · exact ⟨_, execExtract_resource h, rfl, rfl, rfl, rfl, fun _ => rfl⟩
  · exact ⟨_, execExtract_capacity h1 h2 h3, rfl, saturatedCount _, by simp, rfl, fun _ => rfl⟩
  · obtain ⟨t, e, hok, hreq, havail, hflen, hf, -⟩ := execExtract_success h1 h2 h3
    refine ⟨t, e, hok, hreq, havail, hflen, fun j hj => ?_, fun j hj => ?_⟩
    · exact ⟨_, (hf j).trans (if_pos hj), s.lsbByte_toNat _⟩
    · exact (hf j).trans (if_neg (Nat.not_lt.mpr hj))
  · exact spaceKept_of_mem_eq (exec_c (i := .extract) nofun h)

/-- Settles O29: only F and FLEN are written, only on success, and F only below NBYTES. -/
theorem extractFrame : Obligations.ExtractFrame := by
  intro s t h
  obtain ⟨hctlen, hplen, hmem⟩ := execExtract_kept h
  refine ⟨exec_operandsKept h, hctlen, hplen, fun sp hsp => spaceKept_of_mem_eq (hmem sp hsp), ?_⟩
  rcases execExtract_outcome h with ⟨hne, hflen, hf⟩ | ⟨hok, hf⟩
  · exact ⟨fun _ _ _ => ⟨hflen, spaceKept_of_mem_eq hf⟩, fun hok => absurd hok hne⟩
  · refine ⟨fun e he hs => ?_, fun _ => hf⟩
    cases hok.symm.trans hs
    exact absurd rfl he

/-- Settles O30, by the outcomes of EXTRACT: the comparisons and the counts speak of the registers and the capacities, and
the bytes written are read from bits 0 of the elements from POS on. -/
theorem extractSeesOnlyCoverBits : Obligations.ExtractSeesOnlyCoverBits := by
  intro s r hcfg hclen hpos hnbytes hlsb
  rcases execExtract_cases s with ⟨h, e⟩ | ⟨h1, h2, h3, e⟩ | ⟨h1, h2, h3, e⟩
  · exact ⟨_, _, e, execExtract_resource (by rwa [hcfg, hclen, hnbytes]), rfl, rfl, rfl, nofun⟩
  all_goals
    rw [← hcfg, ← hclen] at h1
    rw [← hcfg, ← hnbytes] at h2
  · refine ⟨_, _, e, execExtract_capacity h1 h2 (by rwa [hclen, hpos, hnbytes]), rfl, ?_, ?_, nofun⟩
    · simp [hpos, hnbytes]
    · simp [hclen]
  · have hbytes : r.lsbRead s.pos.toNat s.nbytes.toNat = s.lsbRead s.pos.toNat s.nbytes.toNat :=
      State.lsbRead_congr hlsb
    have hr := execExtract_ok h1 h2 (by rwa [hclen, hpos, hnbytes])
    rw [hclen, hpos, hnbytes, hbytes] at hr
    exact ⟨_, _, e, hr, rfl, rfl, rfl, fun _ => ⟨rfl, fun j hj =>
      Memory.read_write_congr (by rwa [State.lsbRead_length])⟩⟩

end Sys2Proof.Proofs
end

section
/-! SUPPORT. The frame (spec R131 to R142): how MARSHAL and PARSE can end, what they leave alone, the marshalled frame
read back, from F and from a cover, and PARSE over a cover with one bit flipped. -/

namespace Sys2Proof.Machine

/-- A result has at most one next state. -/
theorem next_unique {r : Result} {t u : State} (h : r = .next t) (e : r = .next u) : t = u :=
  Host.Outcome.next.inj (h.symm.trans e)

/-! ## MARSHAL -/

/-- A state `t` in which F holds the frame of the fields of `s`, and only the frame is new (spec R131). -/
structure Marshalled (s t : State) : Prop where
  ct_fits : s.ctlen.toNat ≤ s.cfg.ctCap.val
  frame_fits : 48 + s.ctlen.toNat ≤ s.cfg.frameCap.val
  flen : t.flen.toNat = 48 + s.ctlen.toNat
  inside : ∀ i < 48 + s.ctlen.toNat, Memory.read t.f i = s.frame[i]?
  beyond : ∀ i, 48 + s.ctlen.toNat ≤ i → Memory.read t.f i = Memory.read s.f i

theorem execMarshal_marshalled {s : State} (h1 : s.ctlen.toNat ≤ s.cfg.ctCap.val)
    (h2 : 48 + s.ctlen.toNat ≤ s.cfg.frameCap.val) :
    ∃ t, execMarshal s = .next t ∧ t.status = .done .ok ∧ t.req = 0#64 ∧ t.avail = 0#64 ∧ Marshalled s t := by
  obtain ⟨t, e, hok, hreq, havail, hflen, hf, -⟩ := execMarshal_success h1 h2
  have hlt : 48 + s.ctlen.toNat < 2 ^ 64 := by
    have := s.cfg.frameCap.isLt
    omega
  refine ⟨t, e, hok, hreq, havail, h1, h2, ?_, fun i hi => ?_, fun i hi => ?_⟩
  · rw [hflen, BitVec.toNat_ofNat, Nat.mod_eq_of_lt hlt]
  · rw [hf, if_pos hi]
  · rw [hf, if_neg (Nat.not_lt.mpr hi)]

/-- A MARSHAL that has not succeeded leaves F and FLEN; one that has leaves the frame (spec R131, R133). -/
theorem execMarshal_outcome {s t : State} (h : execMarshal s = .next t) :
    (t.status = .done .resource ∧ t.flen = s.flen ∧ t.f = s.f) ∨ (t.status = .done .ok ∧ Marshalled s t) := by
  rcases execMarshal_cases s with ⟨-, e⟩ | ⟨h1, h2, -⟩
  · cases next_unique h e
    exact .inl ⟨rfl, rfl, rfl⟩
  · obtain ⟨u, e, hok, -, -, hu⟩ := execMarshal_marshalled h1 h2
    cases next_unique h e
    exact .inr ⟨hok, hu⟩

theorem marshalled_of_ok {s t : State} (h : execMarshal s = .next t) (hok : t.status = .done .ok) : Marshalled s t := by
  rcases execMarshal_outcome h with ⟨hres, -⟩ | ⟨-, hm⟩
  · cases hok.symm.trans hres
  · exact hm

/-- Whatever its outcome, MARSHAL writes no CTLEN, no PLEN and no space but F (spec R133). -/
theorem execMarshal_kept {s t : State} (h : execMarshal s = .next t) :
    t.ctlen = s.ctlen ∧ t.plen = s.plen ∧ ∀ sp, sp ≠ .f → t.mem sp = s.mem sp := by
  rcases execMarshal_cases s with ⟨-, e⟩ | ⟨-, -, e⟩ <;> cases next_unique h e
  · exact ⟨rfl, rfl, fun sp _ => by simp⟩
  · refine ⟨by simp, by simp, fun sp hsp => ?_⟩
    cases sp
    case f => exact absurd rfl hsp
    all_goals simp

/-! ### The frame field by field (spec R92) -/

theorem State.frame_take_header (s : State) : s.frame.take 4 = u32be (44 + s.ctlen.toNat) :=
  List.take_left' rfl

/-- A read of a space gives the slice of a sequence whose bytes it reads as. -/
theorem State.memRead_eq_slice {s : State} {sp : Space} {l : List Byte} {a b n : Nat}
    (h : ∀ j < n, l[b + j]? = some (s.peek sp (a + j))) : s.memRead sp a n = (l.drop b).take n := by
  apply List.ext_getElem?
  intro j
  rw [List.getElem?_take, List.getElem?_drop]
  rcases Nat.lt_or_ge j n with hj | hj
  · rw [if_pos hj, h j hj, State.memRead_getElem _ _ _ _ _ hj]
  · rw [if_neg (Nat.not_lt.mpr hj), List.getElem?_eq_none (by rwa [State.memRead_length])]

theorem State.frame_slice {s : State} {sp : Space} {a n : Nat}
    (h : ∀ j < n, s.frame[a + j]? = some (s.peek sp j)) : (s.frame.drop a).take n = s.memRead sp 0 n :=
  (State.memRead_eq_slice fun j hj => by rw [Nat.zero_add, h j hj]).symm

/-- A Header that counts the bytes after it, over at least the fixed fields (spec R92, R93). -/
theorem State.frame_wellFormed {s : State} (h : 44 + s.ctlen.toNat < 2 ^ 32) : frameWellFormed s.frame = true := by
  rw [frameWellFormed, State.frame_take_header, be32_u32be h, State.frame_length, Bool.and_eq_true,
    decide_eq_true_eq, decide_eq_true_eq]
  omega

namespace Marshalled
variable {s t : State} (h : Marshalled s t)
include h

theorem header_lt : 44 + s.ctlen.toNat < 2 ^ 32 := by
  have := h.frame_fits
  have := s.cfg.frameCap.isLt
  omega

/-- Any part of the frame reads back from F. -/
theorem memRead {a n : Nat} (ha : a + n ≤ 48 + s.ctlen.toNat) : t.memRead .f a n = (s.frame.drop a).take n :=
  State.memRead_eq_slice fun j hj => by
    have hl : a + j < s.frame.length := by rw [State.frame_length]; omega
    have hr : Memory.read (t.mem .f) (a + j) = some s.frame[a + j] :=
      (h.inside (a + j) (by omega)).trans (List.getElem?_eq_getElem hl)
    rw [State.peek_of_read hr, List.getElem?_eq_getElem hl]

theorem memRead_header : t.memRead .f 0 4 = u32be (44 + s.ctlen.toNat) := by
  rw [h.memRead (by omega), List.drop_zero, State.frame_take_header]

theorem memRead_frame : t.memRead .f 0 t.flen.toNat = s.frame := by
  rw [h.flen, h.memRead (by omega), List.drop_zero, List.take_of_length_le (Nat.le_of_eq s.frame_length)]

end Marshalled

/-! ## PARSE -/

/-- A cover `s` that PARSE accepts, and a state `t` with the Header, the counts and the fields read from it, where only
the fields are new (spec R136). -/
structure Parsed (s t : State) : Prop where
  clen_le : s.clen.toNat ≤ s.cfg.coverCap.val
  frame_le : 8 * (s.coverHeader + 4) ≤ s.clen.toNat
  header_ge : 44 ≤ s.coverHeader
  ct_fits : s.coverHeader - 44 ≤ s.cfg.ctCap.val
  plen : t.plen.toNat = s.coverHeader
  req : t.req.toNat = 8 * (s.coverHeader + 4)
  ctlen : t.ctlen.toNat = s.coverHeader - 44
  salt : ∀ j, Memory.read t.salt j = if j < 16 then some (s.lsbByte (32 + 8 * j)) else Memory.read s.salt j
  nonce : ∀ j, Memory.read t.nonce j = if j < 12 then some (s.lsbByte (160 + 8 * j)) else Memory.read s.nonce j
  tag : ∀ j, Memory.read t.tag j = if j < 16 then some (s.lsbByte (256 + 8 * j)) else Memory.read s.tag j
  ct : ∀ j, Memory.read t.ct j =
    if j < s.coverHeader - 44 then some (s.lsbByte (384 + 8 * j)) else Memory.read s.ct j

theorem execParse_parsed {s : State} (h1 : s.clen.toNat ≤ s.cfg.coverCap.val)
    (h2 : 8 * (s.coverHeader + 4) ≤ s.clen.toNat) (h3 : 44 ≤ s.coverHeader)
    (h4 : s.coverHeader - 44 ≤ s.cfg.ctCap.val) :
    ∃ t, execParse s = .next t ∧ t.status = .done .ok ∧ Parsed s t := by
  obtain ⟨hsalt, hnonce, htag, hct⟩ := s.splitBody_fields h3
  refine ⟨_, execParse_ok h1 h2 h3 h4, rfl, h1, h2, h3, h4, s.headerRead_plen, s.headerRead_req, ?_,
    hsalt, hnonce, htag, hct⟩
  have := s.coverHeader_lt
  rw [State.complete_ctlen, State.splitBody_ctlen, State.lsbRead_length, BitVec.toNat_ofNat]
  omega

/-- A PARSE that has not succeeded leaves CTLEN and every space; one that has leaves what it read (spec R136, R138). -/
theorem execParse_outcome {s t : State} (h : execParse s = .next t) :
    (t.status ≠ .done .ok ∧ t.ctlen = s.ctlen ∧ ∀ sp, t.mem sp = s.mem sp) ∨
    (t.status = .done .ok ∧ Parsed s t) := by
  rcases execParse_cases s with ⟨-, e⟩ | ⟨-, -, e⟩ | ⟨-, -, -, e⟩ | ⟨-, -, -, e⟩ | ⟨-, -, -, e⟩ | ⟨h1, h2, h3, h4, -⟩
  case inr.inr.inr.inr.inr =>
    obtain ⟨u, e, hok, hu⟩ := execParse_parsed h1 h2 h3 h4
    cases next_unique h e
    exact .inr ⟨hok, hu⟩
  all_goals
    cases next_unique h e
    exact .inl ⟨nofun, rfl, fun sp => by simp [State.headerRead]⟩

theorem parsed_of_ok {s t : State} (h : execParse s = .next t) (hok : t.status = .done .ok) : Parsed s t :=
  ((execParse_outcome h).resolve_left fun hne => hne.1 hok).2

/-- Whatever its outcome, PARSE writes no FLEN, and neither C nor F (spec R138). -/
theorem execParse_kept {s t : State} (h : execParse s = .next t) : t.flen = s.flen ∧ t.c = s.c ∧ t.f = s.f := by
  rcases execParse_cases s with ⟨-, e⟩ | ⟨-, -, e⟩ | ⟨-, -, -, e⟩ | ⟨-, -, -, e⟩ | ⟨-, -, -, e⟩ | ⟨-, -, -, -, e⟩ <;>
    cases next_unique h e <;> simp [State.headerRead]

/-- Before the Header is read PLEN stays (spec R138). -/
theorem execParse_plen_kept {s t : State} (h : execParse s = .next t)
    (hearly : s.cfg.coverCap.val < s.clen.toNat ∨ s.clen.toNat < 32) : t.plen = s.plen := by
  rcases Nat.lt_or_ge s.cfg.coverCap.val s.clen.toNat with h1 | h1
  · cases next_unique h (execParse_tooLong h1)
    rfl
  · cases next_unique h (execParse_noHeader h1 (hearly.resolve_left (Nat.not_lt.mpr h1)))
    rfl

/-- From the header read on the outcome does not matter for PLEN, REQ and AVAIL (spec R136). -/
theorem execParse_header {s t : State} (h : execParse s = .next t) (h1 : s.clen.toNat ≤ s.cfg.coverCap.val)
    (h2 : 32 ≤ s.clen.toNat) :
    t.plen.toNat = s.coverHeader ∧ t.req.toNat = 8 * (s.coverHeader + 4) ∧ t.avail = s.clen := by
  rcases execParse_cases s with ⟨hlt, -⟩ | ⟨-, hlt, -⟩ | ⟨-, -, -, e⟩ | ⟨-, -, -, e⟩ | ⟨-, -, -, e⟩ | ⟨-, -, -, -, e⟩
  · omega
  · omega
  case inr.inr.inr.inr.inr =>
    cases next_unique h e
    rw [State.complete_plen, State.complete_req, State.complete_avail, State.splitBody_plen, State.splitBody_req,
      State.splitBody_avail]
    exact ⟨s.headerRead_plen, s.headerRead_req, s.headerRead_avail⟩
  all_goals
    cases next_unique h e
    exact ⟨s.headerRead_plen, s.headerRead_req, s.headerRead_avail⟩

/-! ## The frame in the cover (spec R139) -/

/-- What stands in the frame's elements of a cover `p` once the frame of `s` has been marshalled to `m` and embedded from
`e`: each byte packed from eight elements is a byte of the frame. -/
theorem lsbByte_of_roundTrip {s m e x p : State} (hm : Marshalled s m) (hflen : e.flen = m.flen)
    (hf : ∀ a < m.flen.toNat, Memory.read e.f a = Memory.read m.f a)
    (hx : execEmbed e = .next x) (hok : x.status = .done .ok)
    (hp : ∀ k < 8 * (48 + s.ctlen.toNat), p.lsb k = x.lsb k)
    {j : Nat} {v : Byte} (hv : s.frame[j]? = some v) : p.lsbByte (8 * j) = v := by
  have hj : j < 48 + s.ctlen.toNat := by
    rw [← State.frame_length]
    exact (List.getElem?_eq_some_iff.mp hv).1
  have hread : Memory.read (e.mem .f) j = some v := by
    rw [State.mem_f, hf j (by rwa [hm.flen]), hm.inside j hj, hv]
  calc p.lsbByte (8 * j) = x.lsbByte (8 * j) := State.lsbByte_congr fun i hi => hp _ (by omega)
    _ = e.peek .f j := lsbByte_of_embedded hx hok (by rwa [hflen, hm.flen])
    _ = v := State.peek_of_read hread

/-- Byte `j` of `u32_be` as one formula (spec R12). -/
theorem u32be_eq_map (v : Nat) : u32be v = (List.range 4).map (fun j => BitVec.ofNat 8 (v / 2 ^ (8 * (3 - j)))) := by
  simp [u32be, List.range_succ]

theorem coverHeader_of_bytes {p : State} {v : Nat} (hv : v < 2 ^ 32)
    (h : ∀ j < 4, p.lsbByte (8 * j) = BitVec.ofNat 8 (v / 2 ^ (8 * (3 - j)))) : p.coverHeader = v := by
  have hbytes : p.lsbRead 0 4 = u32be v := by
    rw [u32be_eq_map]
    exact List.map_congr_left fun j hj => by rw [Nat.zero_add, h j (List.mem_range.mp hj)]
  rw [State.coverHeader, hbytes, be32_u32be hv]

/-- Bit 0 of a written element is bit 0 of its byte, whatever the draw. -/
theorem State.lsb_of_read {s : State} {k : Nat} {v : Byte} (h : Memory.read s.c k = some v) :
    s.lsb k = v.getLsbD 0 := by
  rw [State.lsb, State.peek_of_read (sp := .c) h]

/-! ## A cover with one bit flipped (spec R140) -/

/-- One digit of a sum of weighted bits flipped adds or takes its weight. -/
theorem weightedBits_flip {b c : Nat → Bool} {k n : Nat} (w : Nat → Nat) (hk : k < n)
    (h : ∀ j < n, c j = (b j ^^ decide (j = k))) :
    ((List.range n).map (fun j => (c j).toNat * w j)).sum + (if b k then w k else 0) =
      ((List.range n).map (fun j => (b j).toNat * w j)).sum + (if b k then 0 else w k) := by
  induction n with
  | zero => omega
  | succ n ih =>
    rw [List.range_succ, List.map_append, List.map_append, List.sum_append, List.sum_append, List.map_singleton,
      List.map_singleton, List.sum_singleton, List.sum_singleton, h n (Nat.lt_succ_self n)]
    rcases Nat.lt_or_eq_of_le (Nat.le_of_lt_succ hk) with hlt | rfl
    · have := ih hlt fun j hj => h j (by omega)
      rw [decide_eq_false (by omega), Bool.xor_false]
      omega
    · have hsame : (List.range k).map (fun j => (c j).toNat * w j) = (List.range k).map (fun j => (b j).toNat * w j) :=
        List.map_congr_left fun j hj => by
          have hj : j < k := List.mem_range.mp hj
          rw [h j (by omega), decide_eq_false (by omega), Bool.xor_false]
      rw [hsame]
      cases b k <;> simp

/-- Bit `7 - t` of the byte with the one bit `7 - i` set. -/
theorem getLsbD_one_shiftLeft {i t : Nat} (hi : i < 8) (ht : t < 8) :
    (1#8 <<< (7 - i)).getLsbD (7 - t) = decide (t = i) := by
  have all : ∀ i t : Fin 8, (1#8 <<< (7 - i.val)).getLsbD (7 - t.val) = decide (t.val = i.val) := by decide
  exact all ⟨i, hi⟩ ⟨t, ht⟩

section flipped
variable {s r : State} {k n : Nat} (h : ∀ j < n, r.lsb j = (s.lsb j ^^ decide (j = k)))
include h

theorem coverHeader_of_flip (hn : 32 ≤ n) (hk : k < 32) :
    r.coverHeader + (if s.lsb k then 2 ^ (31 - k) else 0) = s.coverHeader + (if s.lsb k then 0 else 2 ^ (31 - k)) := by
  rw [Proofs.headerFormula r, Proofs.headerFormula s]
  simp only [← State.lsb_toNat]
  exact weightedBits_flip (fun j => 2 ^ (31 - j)) hk fun j hj => h j (by omega)

theorem coverHeader_of_flip_beyond (hn : 32 ≤ n) (hk : 32 ≤ k) : r.coverHeader = s.coverHeader :=
  State.coverHeader_congr fun j hj => by
    rw [h j (by omega), decide_eq_false (by omega), Bool.xor_false]

/-- Byte `j` of a field that starts at element `a` has the bit flipped that element `k` carries, if `k` is one of its
eight elements. -/
theorem lsbByte_of_flip {a j : Nat} (ha : a % 8 = 0) (hn : a + 8 * j + 8 ≤ n) :
    r.lsbByte (a + 8 * j) = if a ≤ k ∧ (k - a) / 8 = j then s.lsbByte (a + 8 * j) ^^^ (1#8 <<< (7 - k % 8))
      else s.lsbByte (a + 8 * j) := by
  split
  · next hin =>
    refine State.lsbByte_eq fun t ht => ?_
    rw [h _ (by omega), BitVec.getLsbD_xor, State.lsbByte_bit _ _ _ ht, getLsbD_one_shiftLeft (by omega) ht]
    congr 2
    rw [eq_iff_iff]
    omega
  · next hout =>
    refine State.lsbByte_congr fun t ht => ?_
    rw [h _ (by omega), decide_eq_false (by omega), Bool.xor_false]

theorem lsbByte_of_flip_before {a j : Nat} (ha : a % 8 = 0) (hn : a + 8 * j + 8 ≤ n) (hk : k < a) :
    r.lsbByte (a + 8 * j) = s.lsbByte (a + 8 * j) := by
  rw [lsbByte_of_flip h ha hn, if_neg (by omega)]

end flipped

end Sys2Proof.Machine

namespace Sys2Proof.Proofs

open Sys2Proof.Machine

/-- Settles O31: each outcome of MARSHAL by its conditions, and each byte of F as the frame's byte of that number. -/
theorem marshalFollowsItsRule : Obligations.MarshalFollowsItsRule := by
  intro s
  refine ⟨fun h => ?_, fun h1 h2 => ?_⟩
  · exact ⟨_, execMarshal_resource h, rfl, rfl, rfl, rfl, fun _ => rfl⟩
  · obtain ⟨t, e, hok, hreq, havail, hm⟩ := execMarshal_marshalled h1 h2
    refine ⟨t, e, hok, hreq, havail, hm.flen, fun j hj => ?_, fun j hj => ?_, fun j hj => ?_, fun j hj => ?_,
      fun j hj => ?_, hm.beyond⟩
    · rw [hm.inside _ (by omega), s.frame_header hj]
    · rw [hm.inside _ (by omega), s.frame_salt hj]
    · rw [hm.inside _ (by omega), s.frame_nonce hj]
    · rw [hm.inside _ (by omega), s.frame_tag hj]
    · rw [hm.inside _ (by omega), s.frame_ct hj]

/-- Settles O32: only F and FLEN are written, only on success, and F only below the frame's length. -/
theorem marshalFrame : Obligations.MarshalFrame := by
  intro s t h
  obtain ⟨hctlen, hplen, hmem⟩ := execMarshal_kept h
  refine ⟨exec_operandsKept h, hctlen, hplen, fun sp hsp => spaceKept_of_mem_eq (hmem sp hsp), ?_⟩
  rcases execMarshal_outcome h with ⟨-, hflen, hf⟩ | ⟨hok, hm⟩
  · exact ⟨fun _ => ⟨hflen, spaceKept_of_mem_eq hf⟩, fun a _ => spaceKept_of_mem_eq (sp := .f) hf a⟩
  · exact ⟨fun hres => (nomatch hok.symm.trans hres), hm.beyond⟩

/-- Settles O33: the frame reads back from F whole, so the laws are those of the frame's bytes. -/
theorem marshalledFrameIsWellFormed : Obligations.MarshalledFrameIsWellFormed := by
  intro s t h hok
  have hm := marshalled_of_ok h hok
  have hheader : be32 (t.memRead .f 0 4) = 44 + s.ctlen.toNat := by rw [hm.memRead_header, be32_u32be hm.header_lt]
  have hflen := hm.flen
  refine ⟨by omega, hheader, ?_, ?_, ?_, ?_, by omega, by omega, ?_⟩
  · rw [hm.memRead (by omega), State.frame_slice fun _ => s.frame_salt]
  · rw [hm.memRead (by omega), State.frame_slice fun _ => s.frame_nonce]
  · rw [hm.memRead (by omega), State.frame_slice fun _ => s.frame_tag]
  · rw [hm.memRead (by omega), State.frame_slice fun _ => s.frame_ct]
  · rw [hm.memRead_frame, State.frame_wellFormed hm.header_lt]

/-- Settles O34: the marshalled frame fits F, so EMBED's only question is whether CLEN holds its bits. -/
theorem encodeCapacityLaw : Obligations.EncodeCapacityLaw := by
  intro s t u h hok hcfg hflen hclen
  have hm := marshalled_of_ok h hok
  have hlen : u.flen.toNat = 48 + s.ctlen.toNat := by rw [hflen, hm.flen]
  have h1 : u.clen.toNat ≤ u.cfg.coverCap.val := by rwa [hcfg]
  have h2 : u.flen.toNat ≤ u.cfg.frameCap.val := by rw [hlen, hcfg]; exact hm.frame_fits
  refine ⟨spaceKept_of_mem_eq ((execMarshal_kept h).2.2 .c nofun), ?_⟩
  rcases Nat.lt_or_ge u.clen.toNat (8 * u.flen.toNat) with h3 | h3
  · exact ⟨_, execEmbed_capacity h1 h2 h3, fun hle => by omega, fun _ => ⟨rfl, fun _ => rfl⟩⟩
  · exact ⟨_, execEmbed_ok h1 h2 h3, fun _ => rfl, fun hlt => by omega⟩

/-- Settles O35: each outcome of PARSE by its conditions; after the header read PLEN and the counts are the same in all of
them. -/
theorem parseFollowsItsRule : Obligations.ParseFollowsItsRule := by
  intro s
  refine ⟨fun h1 => ?_, fun h1 h2 => ?_, fun h1 h2 => ?_, fun t h => ?_⟩
  · exact ⟨_, execParse_tooLong h1, rfl, rfl, rfl, rfl⟩
  · exact ⟨_, execParse_noHeader h1 h2, rfl, rfl, by simp, rfl⟩
  · obtain ⟨t, -, e, -⟩ := exec_next .parse s
    obtain ⟨hplen, hreq, havail⟩ := execParse_header e h1 h2
    refine ⟨t, e, hplen, hreq, havail, fun h3 => ?_, fun h3 h4 => ?_, fun h3 h4 h5 => ?_, fun h3 h4 h5 => ?_⟩
    · rw [next_unique e (execParse_capacity h1 h2 h3), State.complete_status]
    · rw [next_unique e (execParse_format h1 h3 h4), State.complete_status]
    · rw [next_unique e (execParse_tooBig h1 h3 h5), State.complete_status]
    · obtain ⟨u, hu, hok, hp⟩ := execParse_parsed h1 h3 h4 h5
      cases next_unique e hu
      exact ⟨hok, hp.ctlen, fun j hj => (hp.salt j).trans (if_pos hj), fun j hj => (hp.nonce j).trans (if_pos hj),
        fun j hj => (hp.tag j).trans (if_pos hj), fun j hj => (hp.ct j).trans (if_pos hj),
        fun j hj => (hp.ct j).trans (if_neg (Nat.not_lt.mpr hj))⟩
  · obtain ⟨hflen, hc, hf⟩ := execParse_kept h
    obtain ⟨-, -, -, hpos, hnbytes, -⟩ := exec_operandsKept h
    refine ⟨spaceKept_of_mem_eq hc, spaceKept_of_mem_eq hf, hflen, hpos, hnbytes, fun e he hs => ?_⟩
    rcases execParse_outcome h with ⟨-, hctlen, hmem⟩ | ⟨hok, -⟩
    · exact ⟨hctlen, fun sp => spaceKept_of_mem_eq (hmem sp)⟩
    · cases hok.symm.trans hs
      exact absurd rfl he

/-- Settles O36: PARSE writes PLEN from the header read on, and the fields, CT and CTLEN on success, each within its
length. -/
theorem parseFrame : Obligations.ParseFrame := by
  intro s t h
  obtain ⟨hflen, hc, hf⟩ := execParse_kept h
  refine ⟨exec_operandsKept h, hflen, spaceKept_of_mem_eq hc, spaceKept_of_mem_eq hf, ?_⟩
  rcases execParse_outcome h with ⟨hne, hctlen, hmem⟩ | ⟨hok, hp⟩
  · have hkept (sp : Space) : SpaceKept s t sp := spaceKept_of_mem_eq (hmem sp)
    exact ⟨fun _ _ _ => ⟨hctlen, hkept .salt, hkept .nonce, hkept .tag, hkept .ct⟩, execParse_plen_kept h,
      fun hok => absurd hok hne⟩
  · refine ⟨fun e he hs => ?_, execParse_plen_kept h, fun _ => ⟨fun a ha => ?_, fun a ha => ?_, fun a ha => ?_,
      fun a ha => ?_⟩⟩
    · cases hok.symm.trans hs
      exact absurd rfl he
    · rw [hp.plen] at ha
      exact (hp.ct a).trans (if_neg (Nat.not_lt.mpr ha))
    · exact (hp.salt a).trans (if_neg (Nat.not_lt.mpr ha))
    · exact (hp.nonce a).trans (if_neg (Nat.not_lt.mpr ha))
    · exact (hp.tag a).trans (if_neg (Nat.not_lt.mpr ha))

/-- Settles O38: EXTRACT packs the same elements into F that PARSE packs into PLEN and the fields. -/
theorem twoExtractsGiveTheParsedFields : Obligations.TwoExtractsGiveTheParsedFields := by
  intro s t h hok hcap
  have hp := parsed_of_ok h hok
  have h1 := hp.clen_le
  have h2 := hp.frame_le
  have h3 := hp.header_ge
  have hplen := hp.plen
  have hctlen := hp.ctlen
  have hwide : (t.plen.setWidth 64).toNat = s.coverHeader := by
    have := t.plen.isLt
    rw [BitVec.toNat_setWidth]
    omega
  obtain ⟨u, hu, huok, -, -, -, huf, -⟩ := execExtract_success (s := { s with pos := 0#64, nbytes := 4#64 }) h1
    (by show 4 ≤ s.cfg.frameCap.val; omega) (by show 0 + 8 * 4 ≤ s.clen.toNat; omega)
  obtain ⟨v, hv, hvok, -, -, hvflen, hvf, -⟩ :=
    execExtract_success (s := { s with pos := 32#64, nbytes := t.plen.setWidth 64 }) h1
      (by show (t.plen.setWidth 64).toNat ≤ s.cfg.frameCap.val; omega)
      (by show 32 + 8 * (t.plen.setWidth 64).toNat ≤ s.clen.toNat; omega)
  have hbody {j : Nat} (hj : j < s.coverHeader) : Memory.read v.f j = some (s.lsbByte (32 + 8 * j)) :=
    (hvf j).trans (if_pos (by rwa [hwide]))
  refine ⟨u, v, hu, huok, ?_, hv, hvok, ?_, fun j hj => ?_, fun j hj => ?_, fun j hj => ?_, fun j hj => ?_⟩
  · have hread : u.memRead .f 0 4 = s.lsbRead 0 4 := List.map_congr_left fun j hj => by
      rw [Nat.zero_add]
      exact State.peek_of_read ((huf j).trans (if_pos (List.mem_range.mp hj)))
    rw [hread, hplen, State.coverHeader]
  · rw [hvflen, hwide, hplen]
  · rw [hbody (by omega), hp.salt, if_pos hj]
  · rw [hbody (by omega), hp.nonce, if_pos hj, Nat.mul_add, ← Nat.add_assoc]
  · rw [hbody (by omega), hp.tag, if_pos hj, Nat.mul_add, ← Nat.add_assoc]
  · rw [hbody (by omega), hp.ct, if_pos (by omega), Nat.mul_add, ← Nat.add_assoc]

/-- Settles O39: the cover's bits 0 pack into the marshalled frame byte by byte, so PARSE reads its Header, accepts it and
splits it as MARSHAL put it together. -/
theorem roundTripThroughTheCover : Obligations.RoundTripThroughTheCover := by
  intro s m e x p hmarshal hmok hecfg heflen hef hembed hxok hpcfg hlen hcap hbits
  have hm := marshalled_of_ok hmarshal hmok
  have hlsb (k : Nat) (hk : k < 8 * (48 + s.ctlen.toNat)) : p.lsb k = x.lsb k := by
    obtain ⟨v, w, hv, hw, hvw⟩ := hbits k (by omega)
    rw [State.lsb_of_read hw, State.lsb_of_read hv, hvw]
  have hbyte {j : Nat} {v : Byte} (hv : s.frame[j]? = some v) : p.lsbByte (8 * j) = v :=
    lsbByte_of_roundTrip hm heflen hef hembed hxok hlsb hv
  have hheader : p.coverHeader = 44 + s.ctlen.toNat :=
    coverHeader_of_bytes hm.header_lt fun j hj => hbyte (s.frame_header hj)
  have hct := hm.ct_fits
  obtain ⟨t, ht, hok, hp⟩ := execParse_parsed (s := p) (by rwa [hpcfg]) (by omega) (by omega) (by rw [hpcfg]; omega)
  refine ⟨t, ht, hok, hp.plen.trans hheader, ?_, fun j hj => ?_, fun j hj => ?_, fun j hj => ?_, fun j hj => ?_⟩
  · apply BitVec.eq_of_toNat_eq
    rw [hp.ctlen, hheader, Nat.add_sub_cancel_left]
  · rw [hp.salt, if_pos hj, ← hbyte (s.frame_salt hj), Nat.mul_add]
  · rw [hp.nonce, if_pos hj, ← hbyte (s.frame_nonce hj), Nat.mul_add]
  · rw [hp.tag, if_pos hj, ← hbyte (s.frame_tag hj), Nat.mul_add]
  · rw [hp.ct, if_pos (by omega), ← hbyte (s.frame_ct hj), Nat.mul_add]

/-- Settles O40: beyond the Header the flipped bit is one of one byte of the body or of none, and PARSE accepts the cover
as before; within the Header it moves the Header by its weight and no byte of the body. -/
theorem flippedBitReachesOneField : Obligations.FlippedBitReachesOneField := by
  intro s r t k h hok hcfg hclen hk hflip
  have hp := parsed_of_ok h hok
  have h1 := hp.clen_le
  have h2 := hp.frame_le
  have h3 := hp.header_ge
  have hctlen := hp.ctlen
  refine ⟨fun h32 => ?_, fun h32 => ?_⟩
  · have hheader : r.coverHeader = s.coverHeader := coverHeader_of_flip_beyond hflip (by omega) h32
    obtain ⟨u, hu, huok, hq⟩ := execParse_parsed (s := r) (by rwa [hcfg, hclen]) (by rwa [hheader, hclen])
      (by rwa [hheader]) (by rw [hheader, hcfg]; exact hp.ct_fits)
    refine ⟨u, hu, huok, ?_, ?_, ?_, fun j hj => ?_, fun j hj => ?_, fun j hj => ?_, fun j hj => ?_⟩
    · exact BitVec.eq_of_toNat_eq (by rw [hq.plen, hp.plen, hheader])
    · exact BitVec.eq_of_toNat_eq (by rw [hq.req, hp.req, hheader])
    · exact BitVec.eq_of_toNat_eq (by rw [hq.ctlen, hp.ctlen, hheader])
    · rw [hq.salt, hp.salt, if_pos hj, if_pos hj, lsbByte_of_flip hflip rfl (by omega), Option.map_some]
      simp only [h32, true_and]
    · rw [hq.nonce, hp.nonce, if_pos hj, if_pos hj, lsbByte_of_flip hflip rfl (by omega), Option.map_some]
    · rw [hq.tag, hp.tag, if_pos hj, if_pos hj, lsbByte_of_flip hflip rfl (by omega), Option.map_some]
    · rw [hq.ct, hp.ct, if_pos (by omega), if_pos (by omega), lsbByte_of_flip hflip rfl (by omega), Option.map_some]
  · obtain ⟨u, -, hu, -⟩ := exec_next .parse r
    obtain ⟨hplen, hreq, -⟩ := execParse_header hu (by rwa [hcfg, hclen]) (by rw [hclen]; omega)
    refine ⟨u, hu, ?_, by rw [hreq, hplen], fun huok => ?_⟩
    · rw [hplen, hp.plen, coverHeader_of_flip hflip (by omega) h32]
    · have hq := parsed_of_ok hu huok
      have hctlen' := hq.ctlen
      refine ⟨fun j hj => ?_, fun j hj => ?_, fun j hj => ?_, fun j hj => ?_⟩
      · rw [hq.salt, hp.salt, if_pos hj, if_pos hj, lsbByte_of_flip_before hflip rfl (by omega) (by omega)]
      · rw [hq.nonce, hp.nonce, if_pos hj, if_pos hj, lsbByte_of_flip_before hflip rfl (by omega) (by omega)]
      · rw [hq.tag, hp.tag, if_pos hj, if_pos hj, lsbByte_of_flip_before hflip rfl (by omega) (by omega)]
      · rw [hq.ct, hp.ct, if_pos (by omega), if_pos (by omega),
          lsbByte_of_flip_before hflip rfl (by omega) (by omega)]

end Sys2Proof.Proofs
end

section
/-! SUPPORT. Errors (spec R150 to R163): where each command can end with an error, with the state it then leaves. -/

namespace Sys2Proof.Machine

/-- Where a command `i` issued in `s` can end with an error `e`, by the check that failed, and the state it leaves
(spec R151 to R153). Only PARSE, once it has read the Header, leaves more than counts (spec R160). -/
inductive ErrorEnd (s : State) : Instr → ErrCode → State → Prop
  | embedTooLarge (big : s.cfg.coverCap.val < s.clen.toNat ∨ s.cfg.frameCap.val < s.flen.toNat) :
    ErrorEnd s .embed .resource ((s.setCounts 0 0).complete .resource)
  | embedCapacity (cover : s.clen.toNat ≤ s.cfg.coverCap.val) (frame : s.flen.toNat ≤ s.cfg.frameCap.val)
      (short : s.clen.toNat < 8 * s.flen.toNat) :
    ErrorEnd s .embed .capacity ((s.setCounts (8 * s.flen.toNat) s.clen.toNat).complete .capacity)
  | extractTooLarge (big : s.cfg.coverCap.val < s.clen.toNat ∨ s.cfg.frameCap.val < s.nbytes.toNat) :
    ErrorEnd s .extract .resource ((s.setCounts 0 0).complete .resource)
  | extractCapacity (cover : s.clen.toNat ≤ s.cfg.coverCap.val) (frame : s.nbytes.toNat ≤ s.cfg.frameCap.val)
      (short : s.clen.toNat < s.pos.toNat + 8 * s.nbytes.toNat) :
    ErrorEnd s .extract .capacity
      ((s.setCounts (s.pos.toNat + 8 * s.nbytes.toNat) s.clen.toNat).complete .capacity)
  | marshalTooLarge (big : s.cfg.ctCap.val < s.ctlen.toNat ∨ s.cfg.frameCap.val < 48 + s.ctlen.toNat) :
    ErrorEnd s .marshal .resource ((s.setCounts 0 0).complete .resource)
  | parseTooLong (big : s.cfg.coverCap.val < s.clen.toNat) :
    ErrorEnd s .parse .resource ((s.setCounts 0 0).complete .resource)
  | parseNoHeader (cover : s.clen.toNat ≤ s.cfg.coverCap.val) (short : s.clen.toNat < 32) :
    ErrorEnd s .parse .capacity ((s.setCounts 32 s.clen.toNat).complete .capacity)
  | parseCapacity (cover : s.clen.toNat ≤ s.cfg.coverCap.val) (header : 32 ≤ s.clen.toNat)
      (short : s.clen.toNat < 8 * (s.coverHeader + 4)) :
    ErrorEnd s .parse .capacity (s.headerRead.complete .capacity)
  | parseFormat (cover : s.clen.toNat ≤ s.cfg.coverCap.val) (fits : 8 * (s.coverHeader + 4) ≤ s.clen.toNat)
      (low : s.coverHeader < 44) :
    ErrorEnd s .parse .format (s.headerRead.complete .format)
  | parseTooBig (cover : s.clen.toNat ≤ s.cfg.coverCap.val) (fits : 8 * (s.coverHeader + 4) ≤ s.clen.toNat)
      (big : s.cfg.ctCap.val < s.coverHeader - 44) :
    ErrorEnd s .parse .resource (s.headerRead.complete .resource)

/-- A command that has ended with an error has ended in one of the places, by the outcomes of the four commands. -/
theorem exec_errorEnd {i : Instr} {s t : State} {e : ErrCode} (h : exec i s = .next t) (hs : t.status = .done e)
    (he : e ≠ .ok) : ErrorEnd s i e t := by
  cases i with
  | embed =>
    rcases execEmbed_cases s with ⟨h1, r⟩ | ⟨h1, h2, h3, r⟩ | ⟨-, -, -, r⟩ <;> cases next_unique h r <;> cases hs
    · exact .embedTooLarge h1
    · exact .embedCapacity h1 h2 h3
    · exact absurd rfl he
  | extract =>
    rcases execExtract_cases s with ⟨h1, r⟩ | ⟨h1, h2, h3, r⟩ | ⟨-, -, -, r⟩ <;> cases next_unique h r <;> cases hs
    · exact .extractTooLarge h1
    · exact .extractCapacity h1 h2 h3
    · exact absurd rfl he
  | marshal =>
    rcases execMarshal_cases s with ⟨h1, r⟩ | ⟨-, -, r⟩ <;> cases next_unique h r <;> cases hs
    · exact .marshalTooLarge h1
    · exact absurd rfl he
  | parse =>
    rcases execParse_cases s with ⟨h1, r⟩ | ⟨h1, h2, r⟩ | ⟨h1, h2, h3, r⟩ | ⟨h1, h2, h3, r⟩ | ⟨h1, h2, h3, r⟩ |
      ⟨-, -, -, -, r⟩ <;> cases next_unique h r <;> cases hs
    · exact .parseTooLong h1
    · exact .parseNoHeader h1 h2
    · exact .parseCapacity h1 h2 h3
    · exact .parseFormat h1 h2 h3
    · exact .parseTooBig h1 h2 h3
    · exact absurd rfl he

/-- In each of the places the command does end so. -/
theorem ErrorEnd.exec_eq {i : Instr} {s t : State} {e : ErrCode} (h : ErrorEnd s i e t) : exec i s = .next t := by
  cases h with
  | embedTooLarge h1 => exact execEmbed_resource h1
  | embedCapacity h1 h2 h3 => exact execEmbed_capacity h1 h2 h3
  | extractTooLarge h1 => exact execExtract_resource h1
  | extractCapacity h1 h2 h3 => exact execExtract_capacity h1 h2 h3
  | marshalTooLarge h1 => exact execMarshal_resource h1
  | parseTooLong h1 => exact execParse_tooLong h1
  | parseNoHeader h1 h2 => exact execParse_noHeader h1 h2
  | parseCapacity h1 h2 h3 => exact execParse_capacity h1 h2 h3
  | parseFormat h1 h2 h3 => exact execParse_format h1 h2 h3
  | parseTooBig h1 h2 h3 => exact execParse_tooBig h1 h2 h3

theorem ErrorEnd.status_eq {i : Instr} {s t : State} {e : ErrCode} (h : ErrorEnd s i e t) : t.status = .done e := by
  cases h <;> rfl

/-- The place determines the code of every completion of the command. -/
theorem ErrorEnd.status_of_exec {i : Instr} {s t u : State} {e : ErrCode} (p : ErrorEnd s i e u)
    (h : exec i s = .next t) : t.status = .done e := by
  rw [next_unique h p.exec_eq, p.status_eq]

/-- An error writes STATUS, the counts and, in PARSE, PLEN (spec R160, R161). -/
theorem ErrorEnd.state_eq {i : Instr} {s t : State} {e : ErrCode} (h : ErrorEnd s i e t) :
    t = { s with status := .done e, req := t.req, avail := t.avail, plen := t.plen, draws := t.draws } := by
  cases h <;> rfl

theorem ErrorEnd.plen_eq {i : Instr} {s t : State} {e : ErrCode} (h : ErrorEnd s i e t) (hi : i ≠ .parse) :
    t.plen = s.plen := by
  cases h with
  | embedTooLarge | embedCapacity | extractTooLarge | extractCapacity | marshalTooLarge => rfl
  | parseTooLong | parseNoHeader | parseCapacity | parseFormat | parseTooBig => exact absurd rfl hi

/-- The counts of a capacity check that fails: REQ exceeds AVAIL also where it is saturated, since CLEN is at most
COVER_CAP (spec R30, R151). -/
theorem State.setCounts_avail_lt_req {s : State} {n : Nat} (hcap : s.clen.toNat ≤ s.cfg.coverCap.val)
    (hn : s.clen.toNat < n) :
    (s.setCounts n s.clen.toNat).avail.toNat < (s.setCounts n s.clen.toNat).req.toNat := by
  have := s.cfg.coverCap.isLt
  rw [State.setCounts_req, saturatedCount, State.setCounts_avail, BitVec.ofNat_toNat, BitVec.setWidth_eq]
  omega

/-- In all places of ERR_CAPACITY AVAIL is CLEN and REQ exceeds it (spec R151). -/
theorem ErrorEnd.capacity_counts {i : Instr} {s t : State} (h : ErrorEnd s i .capacity t) :
    t.avail = s.clen ∧ t.avail.toNat < t.req.toNat := by
  cases h with
  | embedCapacity h1 _ h3 => exact ⟨by simp, State.setCounts_avail_lt_req h1 h3⟩
  | extractCapacity h1 _ h3 => exact ⟨by simp, State.setCounts_avail_lt_req h1 h3⟩
  | parseNoHeader h1 h2 => exact ⟨by simp, State.setCounts_avail_lt_req h1 h2⟩
  | parseCapacity _ _ h3 =>
    rw [State.complete_avail, State.complete_req, State.headerRead_avail, State.headerRead_req]
    exact ⟨rfl, h3⟩

/-- A CLEN beyond the cover memory is the first thing that the three commands that use the cover refuse (spec R153). -/
theorem errorEnd_of_clen {i : Instr} {s : State} (hi : i ≠ .marshal) (h : s.cfg.coverCap.val < s.clen.toNat) :
    ErrorEnd s i .resource ((s.setCounts 0 0).complete .resource) := by
  cases i with
  | embed => exact .embedTooLarge (.inl h)
  | extract => exact .extractTooLarge (.inl h)
  | marshal => exact absurd rfl hi
  | parse => exact .parseTooLong h

end Sys2Proof.Machine

namespace Sys2Proof.Proofs

open Sys2Proof.Machine

/-- Settles O43: every place of an error leaves the state but for the registers named, and no command ends with
ERR_ILLEGAL, so that code is an illegal byte's. -/
theorem errorsArePrecise : Obligations.ErrorsArePrecise := by
  refine ⟨fun i s t e h hs he => ?_, fun s t h hs => ?_⟩
  · have p := exec_errorEnd h hs he
    exact ⟨p.state_eq, p.plen_eq⟩
  · rcases completeInFlight_eq_next h with ⟨i, -, hi⟩ | ⟨-, rfl⟩
    · nomatch exec_errorEnd hi hs nofun
    · rfl

/-- Settles O44: ERR_CAPACITY has four places, each with the count it recorded; in PARSE PLEN is the Header by then. -/
theorem capacityErrorPlaces : Obligations.CapacityErrorPlaces := by
  intro i s t h
  refine ⟨⟨fun hs => ?_, ?_⟩, fun hs => (exec_errorEnd h hs nofun).capacity_counts⟩
  · cases exec_errorEnd h hs nofun with
    | embedCapacity h1 h2 h3 => exact .inl ⟨rfl, h1, h2, h3, requiredCount (eight_flen_lt h2)⟩
    | extractCapacity h1 h2 h3 => exact .inr (.inl ⟨rfl, h1, h2, h3, saturatedCount _⟩)
    | parseNoHeader h1 h2 => exact .inr (.inr (.inl ⟨rfl, h1, h2, rfl⟩))
    | parseCapacity h1 h2 h3 =>
      refine .inr (.inr (.inr ⟨rfl, h1, h2, ?_, s.headerRead_req_eq⟩))
      rw [State.complete_plen, State.headerRead_plen]
      exact h3
  · rintro (⟨rfl, h1, h2, h3, -⟩ | ⟨rfl, h1, h2, h3, -⟩ | ⟨rfl, h1, h2, -⟩ | ⟨rfl, h1, h2, h3, -⟩)
    · exact (ErrorEnd.embedCapacity h1 h2 h3).status_of_exec h
    · exact (ErrorEnd.extractCapacity h1 h2 h3).status_of_exec h
    · exact (ErrorEnd.parseNoHeader h1 h2).status_of_exec h
    · rw [(execParse_header h h1 h2).1] at h3
      exact (ErrorEnd.parseCapacity h1 h2 h3).status_of_exec h

/-- Settles O45: ERR_FORMAT has one place, where PLEN is the Header. -/
theorem formatErrorPlace : Obligations.FormatErrorPlace := by
  intro i s t h
  constructor
  · intro hs
    cases exec_errorEnd h hs nofun with
    | parseFormat h1 h2 h3 =>
      rw [State.complete_plen, State.headerRead_plen]
      exact ⟨rfl, h1, by omega, h2, h3⟩
  · rintro ⟨rfl, h1, h32, h2, h3⟩
    rw [(execParse_header h h1 h32).1] at h2 h3
    exact (ErrorEnd.parseFormat h1 h2 h3).status_of_exec h

/-- Settles O46: ERR_RESOURCE has one place in each command and a last one in PARSE, which a CLEN beyond the cover
memory forestalls with the same code. -/
theorem resourceErrorPlaces : Obligations.ResourceErrorPlaces := by
  intro i s t h
  constructor
  · intro hs
    cases exec_errorEnd h hs nofun with
    | embedTooLarge big => exact big.imp (⟨nofun, ·⟩) fun hf => .inl ⟨rfl, hf⟩
    | extractTooLarge big => exact big.imp (⟨nofun, ·⟩) fun hf => .inr (.inl ⟨rfl, hf⟩)
    | marshalTooLarge big => exact .inr (.inr (.inr (.inl ⟨rfl, big⟩)))
    | parseTooLong big => exact .inl ⟨nofun, big⟩
    | parseTooBig _ h2 h3 => exact .inr (.inr (.inr (.inr ⟨rfl, by omega, h2, h3⟩)))
  · rintro (⟨hi, hc⟩ | ⟨rfl, hf⟩ | ⟨rfl, hf⟩ | ⟨rfl, big⟩ | ⟨rfl, -, h2, h3⟩)
    · exact (errorEnd_of_clen hi hc).status_of_exec h
    · exact (ErrorEnd.embedTooLarge (.inr hf)).status_of_exec h
    · exact (ErrorEnd.extractTooLarge (.inr hf)).status_of_exec h
    · exact (ErrorEnd.marshalTooLarge big).status_of_exec h
    · rcases Nat.lt_or_ge s.cfg.coverCap.val s.clen.toNat with hc | hc
      · exact (ErrorEnd.parseTooLong hc).status_of_exec h
      · exact (ErrorEnd.parseTooBig hc h2 h3).status_of_exec h

end Sys2Proof.Proofs
end

section
/-! SUPPORT. Reset and the rule on access (spec R180 to R187): the phase that each turn leads to, so that a polite host is
answered for ever; what a reset leaves of the spaces; and the first command after it. -/

namespace Sys2Proof.Machine

/-! ## The phase a state is in (spec R187) -/

/-- The host is locked out while it awaits a completion or a command is in flight. -/
theorem State.locked_iff {s : State} : s.locked = true ↔ s.awaiting = true ∨ s.status = .busy := by
  rw [State.locked, Bool.or_eq_true]
  cases s.status <;> simp [Status.busyBit]

/-- The phase is a matter of STATUS and of what the host awaits. -/
theorem State.phase_congr {s t : State} (hstatus : t.status = s.status) (hawaiting : t.awaiting = s.awaiting) :
    t.phase = s.phase := by
  rw [State.phase, State.phase, hstatus, hawaiting]

theorem State.phase_of_unlocked {s : State} (hl : s.locked = false) : s.phase = .clear := by
  obtain ⟨ha, hb⟩ := State.unlocked hl
  rw [State.phase, if_neg hb, ha]
  rfl

/-- A command is in flight, or completed but not seen to be, or the host may access SHLE. -/
theorem State.phase_cases (s : State) :
    (s.status = .busy ∧ s.phase = .flight) ∨ (s.status ≠ .busy ∧ s.phase = .unseen) ∨
    (s.status ≠ .busy ∧ s.locked = false ∧ s.phase = .clear) := by
  by_cases hb : s.status = .busy
  · exact .inl ⟨hb, if_pos hb⟩
  cases hl : s.locked with
  | true =>
    have ha : s.awaiting = true := (State.locked_iff.mp hl).resolve_right hb
    exact .inr (.inl ⟨hb, (if_neg hb).trans (if_pos ha)⟩)
  | false => exact .inr (.inr ⟨hb, rfl, State.phase_of_unlocked hl⟩)

theorem State.writeReg_turns (s : State) (n v : Nat) : (s.writeReg n v).turns = s.turns := by
  rcases s.writeReg_cases n v with ⟨-, e⟩ | ⟨-, x, e⟩ | ⟨-, x, e⟩ | ⟨-, x, e⟩ | ⟨-, x, e⟩ | ⟨-, x, e⟩ | e <;>
    simp only [e, State.issue_turns]

/-- A write to CMD begins a flight, and no other register write changes the phase. -/
theorem State.writeReg_phase {s : State} (hl : s.locked = false) (n v : Nat) :
    Phase.clear.after (.host (.writeReg n v)) = some (s.writeReg n v).phase := by
  cases n with
  | zero => rfl
  | succ n =>
    have hclear : (s.writeReg (n + 1) v).phase = .clear := by
      rw [← State.phase_of_unlocked hl]
      rcases s.writeReg_cases (n + 1) v with ⟨h0, -⟩ | ⟨-, x, e⟩ | ⟨-, x, e⟩ | ⟨-, x, e⟩ | ⟨-, x, e⟩ | ⟨-, x, e⟩ | e
      case inl => exact absurd h0 (Nat.succ_ne_zero n)
      all_goals exact State.phase_congr (by rw [e]) (by rw [e])
    rw [hclear]
    rfl

/-- The host awaits a completion only of a command in flight or of one that is done, so a read of STATUS with no command
in flight leaves nothing awaited. -/
theorem State.Inv.readStatus_phase {s : State} (h : s.Inv) (hb : s.status ≠ .busy) : s.readStatus.phase = .clear := by
  have hstatus := h.status
  rw [State.StatusOk] at hstatus
  refine (if_neg hb).trans (if_neg ?_)
  rw [State.readStatus_awaiting]
  cases hs : s.status with
  | idle =>
    rw [hs] at hstatus
    obtain ⟨-, -, -, -, hawaiting⟩ := hstatus
    rw [hawaiting]
    nofun
  | busy => exact absurd hs hb
  | done e => simp [Status.doneBit]

/-- The completion of a command in flight is one that the host has not seen. -/
theorem State.Inv.completion_phase {s t : State} {ts : List Turn} (h : s.Inv) (hb : s.status = .busy)
    (ht : completeInFlight { s with turns := ts } = .next t) : t.phase = .unseen ∧ t.turns = ts := by
  obtain ⟨u, e, hu, hdone, -, -, -, -, -, -, hturns, -, hawaiting⟩ := completeInFlight_next { s with turns := ts }
  cases next_unique ht hu
  have hstatus := h.status
  rw [State.StatusOk, hb] at hstatus
  refine ⟨?_, hturns⟩
  rw [State.phase, hdone, hawaiting, hstatus]
  rfl

theorem State.warmReset_turns (s : State) : s.warmReset.turns = s.turns := by
  rcases s.warmReset_cases with ⟨-, e⟩ | ⟨-, t, -, e⟩ <;> rw [e] <;> rfl

theorem State.warmReset_phase (s : State) : s.warmReset.phase = .clear := by
  obtain ⟨u, e⟩ := s.warmReset_eq
  rw [e]
  rfl

/-! ## Every turn of a polite list leads to a polite list (spec R187) -/

/-- From here on the listed turns make no access that is forbidden. -/
def State.Polite (s : State) : Prop := polite s.phase s.turns = true

/-- Of a completed command that it has not seen to be so a polite host only reads STATUS, and is then free. -/
theorem polite_unseen_host {a : Access} {ts : List Turn} (h : polite .unseen (.host a :: ts) = true) :
    a = .readReg 1 ∧ polite .clear ts = true := by
  by_cases ha : a = .readReg 1
  · subst ha; exact ⟨rfl, h⟩
  · simp [polite, Phase.after] at h

/-- WAIT and the two resets are allowed in every phase and lead out of it into `clear`. -/
theorem polite_clearing (p : Phase) (ts : List Turn) :
    polite p (.wait :: ts) = polite .clear ts ∧ polite p (.warmReset :: ts) = polite .clear ts ∧
    polite p (.powerOnReset :: ts) = polite .clear ts := by
  cases p <;> exact ⟨rfl, rfl, rfl⟩

/-- The end of a script leaves the phase as it is. -/
theorem polite_stopOnError (p : Phase) (ts : List Turn) : polite p (.stopOnError :: ts) = polite p ts := by
  cases p <;> rfl

/-- An access of a host that is not locked out is answered, and leads to the phase that the rule says. -/
theorem step_host_unlocked {s : State} {a : Access} {ts : List Turn} (hl : s.locked = false)
    (h : s.turns = .host a :: ts) :
    ∃ t, step s = .next t ∧ t.turns = ts ∧ Phase.clear.after (.host a) = some t.phase := by
  have hclear {t : State} (hstatus : t.status = s.status) (hawaiting : t.awaiting = s.awaiting) :
      some .clear = some t.phase := by
    rw [State.phase_congr hstatus hawaiting, State.phase_of_unlocked hl]
  cases a with
  | readReg n => exact ⟨_, step_readReg hl h, rfl, hclear rfl rfl⟩
  | writeReg n v =>
    exact ⟨_, step_writeReg hl h, State.writeReg_turns _ n v, State.writeReg_phase (s := { s with turns := ts }) hl n v⟩
  | readByte n k => exact ⟨_, step_readByte hl h, rfl, hclear rfl rfl⟩
  | writeByte n k v =>
    refine ⟨_, step_writeByte hl h, ?_, ?_⟩ <;> rw [State.writeByte_eq]
    exact hclear rfl rfl

/-- A WAIT with no command in flight is one read of STATUS, which ends it or leaves it pending (log 11). -/
theorem waitTurn_settled {s : State} (rest : List Turn) (hb : s.status ≠ .busy) :
    ∃ later, (later = rest ∨ later = .wait :: rest) ∧ waitTurn rest s = .next { s.readStatus with turns := later } := by
  cases hs : s.status with
  | idle => exact ⟨_, .inr rfl, by simp only [waitTurn, hs]⟩
  | busy => exact absurd hs hb
  | done e => exact ⟨_, .inl rfl, by simp only [waitTurn, hs]⟩

/-- With no turn listed a step goes on, and lists none (spec R105, R194). -/
theorem step_nil_next {s : State} (h : s.turns = []) : ∃ t, step s = .next t ∧ t.turns = [] := by
  rw [step_nil h]
  by_cases hb : s.status = .busy
  · obtain ⟨t, -, ht, -, -, -, -, -, -, -, hturns, -⟩ := completeInFlight_next s
    exact ⟨t, (engineTurn_busy hb).trans ht, hturns.trans h⟩
  · exact ⟨s, if_neg hb, h⟩

theorem State.Polite.of_eq {t : State} {p : Phase} {ts : List Turn} (hphase : t.phase = p) (hts : t.turns = ts)
    (h : polite p ts = true) : t.Polite := by
  rwa [State.Polite, hphase, hts]

section politeStep
variable {s : State} (hs : s.Inv) (hp : s.Polite)
include hs hp

/-- While the host is locked out a polite one reads STATUS, which is always answered; else every access is. -/
theorem step_host_polite {a : Access} {ts : List Turn} (h : s.turns = .host a :: ts) :
    ∃ t, step s = .next t ∧ t.Polite := by
  rw [State.Polite, h] at hp
  rcases s.phase_cases with ⟨hb, hphase⟩ | ⟨hb, hphase⟩ | ⟨-, hl, hphase⟩ <;> rw [hphase] at hp
  · obtain ⟨rfl, hp⟩ := polite_flight_host hp
    exact ⟨_, step_readStatus h, .of_eq (if_pos hb) rfl hp⟩
  · obtain ⟨rfl, hp⟩ := polite_unseen_host hp
    exact ⟨_, step_readStatus h, .of_eq ((hs.turns ts).readStatus_phase hb) rfl hp⟩
  · obtain ⟨t, ht, hts, hafter⟩ := step_host_unlocked hl h
    rw [polite, hafter] at hp
    exact ⟨t, ht, .of_eq rfl hts hp⟩

/-- A WAIT takes the completion of the command in flight and stays, or is a read of STATUS. -/
theorem step_wait_polite {ts : List Turn} (h : s.turns = .wait :: ts) : ∃ t, step s = .next t ∧ t.Polite := by
  have hclear : polite .clear ts = true := by rwa [State.Polite, h, (polite_clearing _ ts).1] at hp
  by_cases hb : s.status = .busy
  · obtain ⟨t, -, ht, -⟩ := completeInFlight_next s
    obtain ⟨hphase, hts⟩ := hs.completion_phase hb (by rwa [State.with_turns h])
    exact ⟨t, (step_wait_busy hb h).trans ht, .of_eq hphase hts hclear⟩
  · obtain ⟨later, hlater, ht⟩ := waitTurn_settled (s := { s with turns := ts }) ts hb
    refine ⟨_, (step_cons h).trans ht, .of_eq ((hs.turns ts).readStatus_phase hb) rfl ?_⟩
    rcases hlater with rfl | rfl <;> exact hclear

/-- The engine completes the command in flight, or has nothing to do. -/
theorem step_engine_polite {ts : List Turn} (h : s.turns = .engine :: ts) : ∃ t, step s = .next t ∧ t.Polite := by
  rw [State.Polite, h] at hp
  rcases s.phase_cases with ⟨hb, hphase⟩ | ⟨hb, hphase⟩ | ⟨hb, -, hphase⟩ <;> rw [hphase] at hp
  · obtain ⟨t, -, ht, -⟩ := completeInFlight_next { s with turns := ts }
    obtain ⟨hunseen, hts⟩ := hs.completion_phase hb ht
    exact ⟨t, (step_engine_busy hb h).trans ht, .of_eq hunseen hts hp⟩
  all_goals
    exact ⟨_, (step_cons h).trans (if_neg hb), .of_eq ((State.phase_congr rfl rfl).trans hphase) rfl hp⟩

omit hs in
/-- A script that goes on is polite as before, and one cut short is polite in any phase. -/
theorem step_stopOnError_polite {ts : List Turn} (h : s.turns = .stopOnError :: ts) :
    ∃ t, step s = .next t ∧ t.Polite := by
  rw [State.Polite, h, polite_stopOnError] at hp
  refine ⟨_, step_cons h, ?_⟩
  rcases State.stopOnError_cases { s with turns := ts } with e | e <;> rw [e]
  · exact hp
  · exact polite_filter_not_ofHost _ ts

omit hs in
/-- After a reset nothing is in flight or awaited. -/
theorem step_reset_polite {ts : List Turn} (h : s.turns = .warmReset :: ts ∨ s.turns = .powerOnReset :: ts) :
    ∃ t, step s = .next t ∧ t.Polite := by
  obtain ⟨-, hwarm, hpowerOn⟩ := polite_clearing s.phase ts
  rcases h with h | h
  · rw [State.Polite, h, hwarm] at hp
    exact ⟨_, step_cons h, .of_eq (State.warmReset_phase _) (State.warmReset_turns _) hp⟩
  · rw [State.Polite, h, hpowerOn] at hp
    exact ⟨_, step_cons h, .of_eq rfl rfl hp⟩

/-- Every turn of a polite host, of the engine and of reset gives a next state that is polite again. -/
theorem step_polite : ∃ t, step s = .next t ∧ t.Polite := by
  cases hts : s.turns with
  | nil =>
    obtain ⟨t, ht, hnil⟩ := step_nil_next hts
    exact ⟨t, ht, .of_eq rfl hnil rfl⟩
  | cons turn ts =>
    cases turn with
    | host a => exact step_host_polite hs hp hts
    | wait => exact step_wait_polite hs hp hts
    | stopOnError => exact step_stopOnError_polite hp hts
    | engine => exact step_engine_polite hs hp hts
    | warmReset => exact step_reset_polite hp (.inl hts)
    | powerOnReset => exact step_reset_polite hp (.inr hts)

end politeStep

/-- The invariant and politeness hold along the whole run. -/
theorem polite_neverStops {s : State} (hs : s.Inv) (hp : s.Polite) : NeverStops s := by
  intro n
  induction n generalizing s with
  | zero => exact ⟨s, rfl⟩
  | succ n ih =>
    obtain ⟨t, ht, htp⟩ := step_polite hs hp
    rw [run_succ n ht]
    exact ih (step_keeps_inv hs ht) htp

/-! ## The access rule (spec R187) -/

/-- DONE is bit 1 of STATUS's byte (spec R29). -/
theorem Status.byte_bit_one (t : Status) : t.byte.getLsbD 1 = t.doneBit := by
  cases t with
  | done e => cases e <;> rfl
  | idle | busy => rfl

/-- A refusal of the host's turn is the access rule's, and the rule allows the reads of STATUS alone. -/
theorem step_host_refused_iff {s : State} {a : Access} {ts : List Turn} (h : s.turns = .host a :: ts) :
    step s = .refused .hostAccessWhileBusy ↔ a ≠ .readReg 1 ∧ s.locked = true := by
  refine ⟨fun hr => ⟨?_, ?_⟩, fun ⟨ha, hl⟩ => step_host_locked hl ha h⟩
  · rintro rfl
    cases hr.symm.trans (step_readStatus h)
  · by_contra hl
    obtain ⟨t, ht, -⟩ := step_host_unlocked (Bool.eq_false_iff.mpr hl) h
    cases hr.symm.trans ht

/-! ## What a reset leaves (spec R180 to R182) -/

theorem State.resetRegisters_registersReset (s : State) : RegistersReset s.resetRegisters :=
  ⟨rfl, rfl, rfl, rfl, rfl, rfl, rfl, rfl, rfl, rfl, rfl⟩

theorem State.warmReset_registersReset (s : State) : RegistersReset s.warmReset := by
  obtain ⟨u, e⟩ := s.warmReset_eq
  rw [e]
  exact u.resetRegisters_registersReset

theorem State.warmReset_awaiting (s : State) : s.warmReset.awaiting = false := by
  obtain ⟨u, e⟩ := s.warmReset_eq
  rw [e, State.resetRegisters_awaiting]

theorem step_warmReset {s : State} {ts : List Turn} (h : s.turns = .warmReset :: ts) :
    step s = .next (State.warmReset { s with turns := ts }) :=
  step_cons h

/-- Taking a turn off the list leaves the spaces. -/
theorem State.mem_with_turns (s : State) (ts : List Turn) (sp : Space) :
    State.mem { s with turns := ts } sp = s.mem sp := by
  cases sp <;> rfl

/-- Each space that a reset cuts short is that of before with some of the command's bytes. -/
@[simp] theorem State.mem_cutSpaces (s t : State) (sp : Space) :
    (s.cutSpaces t).mem sp = Memory.cutShort (Config.newValueLanded s.draws sp.number) (s.mem sp) (t.mem sp) := by
  cases sp <;> rfl

/-- A completion never forgets a byte. -/
theorem completeInFlight_read_none {s t : State} (h : completeInFlight s = .next t) (sp : Space) (a : Nat)
    (hn : Memory.read (t.mem sp) a = none) : Memory.read (s.mem sp) a = none := by
  rcases completeInFlight_eq_next h with ⟨i, -, hi⟩ | ⟨-, rfl⟩
  · exact exec_read_none hi sp a hn
  · rwa [State.completeIllegal, State.mem_complete, State.mem_setCounts] at hn

/-- A completion with an error writes no space (spec R160, R182). -/
theorem completeInFlight_mem_of_error {s t : State} (h : completeInFlight s = .next t) (hne : t.status ≠ .done .ok)
    (sp : Space) : t.mem sp = s.mem sp := by
  rcases completeInFlight_eq_next h with ⟨i, -, hi⟩ | ⟨-, rfl⟩
  · obtain ⟨e, hs⟩ := completeInFlight_done h
    have p : ErrorEnd s i e t := exec_errorEnd hi hs (by rintro rfl; exact hne hs)
    rw [p.state_eq]
    cases sp <;> rfl
  · rw [State.completeIllegal, State.mem_complete, State.mem_setCounts]

/-- Each byte of a space that a warm reset of a busy engine leaves is the command's or that of before (spec R182). -/
theorem State.warmReset_read {s u : State} (hb : s.status = .busy) (hu : completeInFlight s = .next u) (sp : Space)
    (a : Nat) : Memory.read (s.warmReset.mem sp) a =
      if Config.newValueLanded s.draws sp.number a then Memory.read (u.mem sp) a else Memory.read (s.mem sp) a := by
  rcases s.warmReset_cases with ⟨hn, -⟩ | ⟨-, t, ht, e⟩
  · exact absurd hb hn
  · cases next_unique hu ht
    rw [e, State.mem_resetRegisters, State.mem_cutSpaces]
    exact Memory.read_cutShort _ _ _ _ (completeInFlight_read_none hu sp a)

/-! ## The first command after a reset (spec R186) -/

section firstCommand
variable {s : State} (hr : RegistersReset s)
include hr

/-- With nothing in F to embed EMBED writes no element. -/
theorem execEmbed_first : ∃ t, execEmbed s = .next t ∧ t.status = .done .ok ∧ ∀ sp, SpaceKept s t sp := by
  obtain ⟨-, -, -, hclen, hflen, -⟩ := hr
  obtain ⟨t, ht, hok, -, -, hc, hmem⟩ :=
    execEmbed_success (s := s) (by simp [hclen]) (by simp [hflen]) (by simp [hflen])
  refine ⟨t, ht, hok, fun sp => ?_⟩
  by_cases hsp : sp = .c
  · subst hsp
    intro i
    exact (hc i).trans (if_neg (by simp [hflen]))
  · exact spaceKept_of_mem_eq (hmem sp hsp)

/-- With no bytes asked for EXTRACT writes none. -/
theorem execExtract_first : ∃ t, execExtract s = .next t ∧ t.status = .done .ok ∧ ∀ sp, SpaceKept s t sp := by
  obtain ⟨-, -, -, hclen, -, -, hpos, hnbytes, -⟩ := hr
  obtain ⟨t, ht, hok, -, -, -, hf, hmem⟩ :=
    execExtract_success (s := s) (by simp [hclen]) (by simp [hnbytes]) (by simp [hpos, hnbytes])
  refine ⟨t, ht, hok, fun sp => ?_⟩
  by_cases hsp : sp = .f
  · subst hsp
    intro j
    exact (hf j).trans (if_neg (by simp [hnbytes]))
  · exact spaceKept_of_mem_eq (hmem sp hsp)

/-- An empty cover has no room for the Header's 32 bits. -/
theorem execParse_first :
    ∃ t, execParse s = .next t ∧ t.status = .done .capacity ∧ t.req = 32#64 ∧ t.avail = 0#64 := by
  obtain ⟨-, -, -, hclen, -⟩ := hr
  exact ⟨_, execParse_noHeader (by simp [hclen]) (by simp [hclen]), rfl, rfl, by simp [hclen]⟩

/-- The frame of no ciphertext is the Header 44 and the three fields. -/
theorem execMarshal_first (hcap : 48 ≤ s.cfg.frameCap.val) :
    ∃ t, execMarshal s = .next t ∧ t.status = .done .ok ∧ t.flen = 48#64 ∧ be32 (t.memRead .f 0 4) = 44 ∧
      (∀ j < 16, Memory.read t.f (4 + j) = some (s.peek .salt j)) ∧
      (∀ j < 12, Memory.read t.f (20 + j) = some (s.peek .nonce j)) ∧
      (∀ j < 16, Memory.read t.f (32 + j) = some (s.peek .tag j)) := by
  obtain ⟨-, -, -, -, -, hctlen, -⟩ := hr
  have hzero : s.ctlen.toNat = 0 := by rw [hctlen]; rfl
  obtain ⟨t, ht, hok, -, -, hm⟩ := execMarshal_marshalled (s := s) (by omega) (by omega)
  refine ⟨t, ht, hok, BitVec.eq_of_toNat_eq ?_, ?_, fun j hj => ?_, fun j hj => ?_, fun j hj => ?_⟩
  · rw [hm.flen, hzero]; rfl
  · rw [hm.memRead_header, be32_u32be hm.header_lt, hzero]
  · rw [hm.inside _ (by omega), s.frame_salt hj]
  · rw [hm.inside _ (by omega), s.frame_nonce hj]
  · rw [hm.inside _ (by omega), s.frame_tag hj]

end firstCommand

end Sys2Proof.Machine

namespace Sys2Proof.Proofs

open Sys2Proof.Machine

/-- Settles O15: the invariant and the politeness of the turns to come are kept by every step, and such a state's step
goes on. -/
theorem politeHostIsNeverStopped : Obligations.PoliteHostIsNeverStopped :=
  fun _ hs hp => polite_neverStops hs hp

/-- Settles O14: a locked-out host is refused all but the read of STATUS, and the read that ends the wait is the one with
DONE = 1. -/
theorem accessWhileBusyIsRefused : Obligations.AccessWhileBusyIsRefused := by
  intro s a ts hts
  refine ⟨?_, ?_, ?_⟩
  · rw [step_host_refused_iff hts, State.locked_iff]
  · rintro rfl
    refine ⟨_, step_readStatus hts, rfl, ?_⟩
    rw [State.readStatus_awaiting, Status.byte_bit_one, Bool.and_eq_true, Bool.not_eq_true']
  · rintro v t rfl ht
    cases hl : s.locked with
    | true => cases ht.symm.trans (step_host_locked hl (a := .writeReg 0 v) nofun hts)
    | false =>
      cases next_unique ht (step_writeReg hl hts)
      rfl

/-- Settles O20: both resets reset the registers, over some contents of the spaces. -/
theorem resetClearsRegisters : Obligations.ResetClearsRegisters := by
  rintro s ⟨ts, hts | hts⟩
  · exact ⟨_, step_warmReset hts, State.warmReset_registersReset _, State.warmReset_awaiting _, State.warmReset_cfg _⟩
  · exact ⟨_, step_cons hts, s.resetRegisters_registersReset, rfl, rfl⟩

/-- Settles O21: a warm reset of an idle engine resets the registers alone; a power-on reset empties every space. -/
theorem resetAndStorage : Obligations.ResetAndStorage := by
  refine fun s ts => ⟨fun hts hb => ⟨_, step_warmReset hts, fun sp => ?_⟩, fun hts => ⟨_, step_cons hts, fun sp a => ?_⟩⟩
  · have e : State.warmReset { s with turns := ts } = State.resetRegisters { s with turns := ts } := if_neg hb
    exact spaceKept_of_mem_eq (by rw [e, State.mem_resetRegisters, State.mem_with_turns])
  · cases sp <;> rfl

/-- Settles O22: a byte that the command would have left unwritten was unwritten before, so each byte is the command's or
that of before; after an error the two are the same. -/
theorem resetCutsACommandShort : Obligations.ResetCutsACommandShort := by
  intro s u ts hb hts hu
  have hread := State.warmReset_read (s := { s with turns := ts }) hb hu
  simp only [State.mem_with_turns] at hread
  refine ⟨_, step_warmReset hts, State.warmReset_registersReset _, hread, fun hne sp a => ?_⟩
  have hmem : u.mem sp = s.mem sp := by rw [completeInFlight_mem_of_error hu hne, State.mem_with_turns]
  rw [hread, hmem, ite_self]

/-- Settles O23: with CLEN, FLEN, NBYTES and POS zero the bit commands move nothing and PARSE finds no Header, and with
CTLEN zero the frame is 48 bytes. -/
theorem firstCommandFromReset : Obligations.FirstCommandFromReset :=
  fun _ hr => ⟨execEmbed_first hr, execExtract_first hr, execParse_first hr, execMarshal_first hr⟩

end Sys2Proof.Proofs
end
